-- ==== Sys2Proof/Word.lean ====
section
/-! DEFINITION. The word types of the machine and the narrowing and widening primitives of 00_scope.md R8. -/

namespace Sys2Proof

/-- A byte: a general register, a timer, a memory or framebuffer byte (10_state.md R20, R26, R27, R28). -/
abbrev Byte := BitVec 8

/-- A 16-bit word: I, PC, a stack entry, an instruction word, a key bitmask (10_state.md R23, R24, R25, R30). -/
abbrev Word := BitVec 16

/-- The 12-bit address field `nnn` of an instruction word (00_scope.md R12). -/
abbrev Addr := BitVec 12

/-- A four-bit field of an instruction word (00_scope.md R16 "Nibble"). -/
abbrev Nibble := BitVec 4

/-- The number of a general register, 0..15 (10_state.md R20). -/
abbrev Reg := Fin 16

/-- `trunc8(v) = v mod 256` (00_scope.md R8). -/
def trunc8 (v : Nat) : Byte := BitVec.ofNat 8 v

/-- `trunc16(v) = v mod 65536` (00_scope.md R8). -/
def trunc16 (v : Nat) : Word := BitVec.ofNat 16 v

/-- VF, the flag register, is `V[15]` (10_state.md R21). -/
def flagReg : Reg := 15

end Sys2Proof
end

