-- ==== Sys2Proof/Syntax.lean ====
section
/-! DEFINITION. The 35 operations, one constructor per row of spec/opcode_table.json, in the order of 30_encoding.md R75. -/

namespace Sys2Proof

/-- An instruction with its operands: `nnn` an address, `x` and `y` register numbers, `kk` an immediate byte,
`n` a nibble (00_scope.md R12). -/
inductive Instr where
  /-- `CLS` (43_display.md R161). -/
  | cls
  /-- `RET` (40_control.md R104). -/
  | ret
  /-- `SYS addr` (40_control.md R101). -/
  | sys (nnn : Addr)
  /-- `JP addr` (40_control.md R102). -/
  | jp (nnn : Addr)
  /-- `CALL addr` (40_control.md R103). -/
  | call (nnn : Addr)
  /-- `SE Vx,byte` (40_control.md R106). -/
  | seByte (x : Reg) (kk : Byte)
  /-- `SNE Vx,byte` (40_control.md R107). -/
  | sneByte (x : Reg) (kk : Byte)
  /-- `SE Vx,Vy` (40_control.md R108). -/
  | seReg (x y : Reg)
  /-- `LD Vx,byte` (41_alu.md R121). -/
  | ldByte (x : Reg) (kk : Byte)
  /-- `ADD Vx,byte` (41_alu.md R122). -/
  | addByte (x : Reg) (kk : Byte)
  /-- `LD Vx,Vy` (41_alu.md R123). -/
  | ldReg (x y : Reg)
  /-- `OR Vx,Vy` (41_alu.md R124). -/
  | orReg (x y : Reg)
  /-- `AND Vx,Vy` (41_alu.md R125). -/
  | andReg (x y : Reg)
  /-- `XOR Vx,Vy` (41_alu.md R126). -/
  | xorReg (x y : Reg)
  /-- `ADD Vx,Vy` (41_alu.md R127). -/
  | addReg (x y : Reg)
  /-- `SUB Vx,Vy` (41_alu.md R128). -/
  | sub (x y : Reg)
  /-- `SHR Vx,Vy` (41_alu.md R129). -/
  | shr (x y : Reg)
  /-- `SUBN Vx,Vy` (41_alu.md R130). -/
  | subn (x y : Reg)
  /-- `SHL Vx,Vy` (41_alu.md R131). -/
  | shl (x y : Reg)
  /-- `SNE Vx,Vy` (40_control.md R109). -/
  | sneReg (x y : Reg)
  /-- `LD I,addr` (42_index_memory.md R140). -/
  | ldI (nnn : Addr)
  /-- `JP V0,addr` (40_control.md R105). -/
  | jpV0 (nnn : Addr)
  /-- `RND Vx,byte` (41_alu.md R132). -/
  | rnd (x : Reg) (kk : Byte)
  /-- `DRW Vx,Vy,n` (43_display.md R162). -/
  | drw (x y : Reg) (n : Nibble)
  /-- `SKP Vx` (44_timers_keys.md R183). -/
  | skp (x : Reg)
  /-- `SKNP Vx` (44_timers_keys.md R184). -/
  | sknp (x : Reg)
  /-- `LD Vx,DT` (44_timers_keys.md R180). -/
  | ldVxDT (x : Reg)
  /-- `LD Vx,K` (44_timers_keys.md R185). -/
  | ldVxK (x : Reg)
  /-- `LD DT,Vx` (44_timers_keys.md R181). -/
  | ldDTVx (x : Reg)
  /-- `LD ST,Vx` (44_timers_keys.md R182). -/
  | ldSTVx (x : Reg)
  /-- `ADD I,Vx` (42_index_memory.md R141). -/
  | addI (x : Reg)
  /-- `LD F,Vx` (42_index_memory.md R142). -/
  | ldF (x : Reg)
  /-- `LD B,Vx` (42_index_memory.md R143). -/
  | ldB (x : Reg)
  /-- `LD [I],Vx` (42_index_memory.md R144). -/
  | storeRegs (x : Reg)
  /-- `LD Vx,[I]` (42_index_memory.md R145). -/
  | loadRegs (x : Reg)
  deriving DecidableEq, Repr

end Sys2Proof
end

