-- ==== Sys2Proof/Decode.lean ====
section
/-! DEFINITION. Decoding and encoding: the fields of 30_encoding.md R71, the opcode map of R75, the first-match rule of
R73 and R74, and the encoder written from the same map. -/

namespace Sys2Proof

/-! ## Fields of an instruction word (R71) -/

/-- `nnn = w[11:0]`. -/
def fieldNnn (w : Word) : Addr := w.extractLsb' 0 12

/-- `x = w[11:8]`, a register number. -/
def fieldX (w : Word) : Reg := (w.extractLsb' 8 4).toFin

/-- `y = w[7:4]`, a register number. -/
def fieldY (w : Word) : Reg := (w.extractLsb' 4 4).toFin

/-- `kk = w[7:0]`. -/
def fieldKk (w : Word) : Byte := w.extractLsb' 0 8

/-- `n = w[3:0]`. -/
def fieldN (w : Word) : Nibble := w.extractLsb' 0 4

/-! ## The opcode map (R75) -/

/-- A row of the opcode map: the words whose bits under `mask` are `value`, and the instruction they stand for. -/
structure OpcodeRow where
  value : Word
  mask : Word
  build : Word → Instr

/-- A row matches a word iff `(word & mask) == value` (R73). -/
def OpcodeRow.holds (r : OpcodeRow) (w : Word) : Bool := w &&& r.mask == r.value

/-- Rows 1 to 10 of R75. -/
def opcodeRows1 : List OpcodeRow := [
  ⟨0x00E0, 0xFFFF, fun _ => .cls⟩,
  ⟨0x00EE, 0xFFFF, fun _ => .ret⟩,
  ⟨0x0000, 0xF000, fun w => .sys (fieldNnn w)⟩,
  ⟨0x1000, 0xF000, fun w => .jp (fieldNnn w)⟩,
  ⟨0x2000, 0xF000, fun w => .call (fieldNnn w)⟩,
  ⟨0x3000, 0xF000, fun w => .seByte (fieldX w) (fieldKk w)⟩,
  ⟨0x4000, 0xF000, fun w => .sneByte (fieldX w) (fieldKk w)⟩,
  ⟨0x5000, 0xF00F, fun w => .seReg (fieldX w) (fieldY w)⟩,
  ⟨0x6000, 0xF000, fun w => .ldByte (fieldX w) (fieldKk w)⟩,
  ⟨0x7000, 0xF000, fun w => .addByte (fieldX w) (fieldKk w)⟩]

/-- Rows 11 to 24 of R75. -/
def opcodeRows2 : List OpcodeRow := [
  ⟨0x8000, 0xF00F, fun w => .ldReg (fieldX w) (fieldY w)⟩,
  ⟨0x8001, 0xF00F, fun w => .orReg (fieldX w) (fieldY w)⟩,
  ⟨0x8002, 0xF00F, fun w => .andReg (fieldX w) (fieldY w)⟩,
  ⟨0x8003, 0xF00F, fun w => .xorReg (fieldX w) (fieldY w)⟩,
  ⟨0x8004, 0xF00F, fun w => .addReg (fieldX w) (fieldY w)⟩,
  ⟨0x8005, 0xF00F, fun w => .sub (fieldX w) (fieldY w)⟩,
  ⟨0x8006, 0xF00F, fun w => .shr (fieldX w) (fieldY w)⟩,
  ⟨0x8007, 0xF00F, fun w => .subn (fieldX w) (fieldY w)⟩,
  ⟨0x800E, 0xF00F, fun w => .shl (fieldX w) (fieldY w)⟩,
  ⟨0x9000, 0xF00F, fun w => .sneReg (fieldX w) (fieldY w)⟩,
  ⟨0xA000, 0xF000, fun w => .ldI (fieldNnn w)⟩,
  ⟨0xB000, 0xF000, fun w => .jpV0 (fieldNnn w)⟩,
  ⟨0xC000, 0xF000, fun w => .rnd (fieldX w) (fieldKk w)⟩,
  ⟨0xD000, 0xF000, fun w => .drw (fieldX w) (fieldY w) (fieldN w)⟩]

/-- Rows 25 to 35 of R75. -/
def opcodeRows3 : List OpcodeRow := [
  ⟨0xE09E, 0xF0FF, fun w => .skp (fieldX w)⟩,
  ⟨0xE0A1, 0xF0FF, fun w => .sknp (fieldX w)⟩,
  ⟨0xF007, 0xF0FF, fun w => .ldVxDT (fieldX w)⟩,
  ⟨0xF00A, 0xF0FF, fun w => .ldVxK (fieldX w)⟩,
  ⟨0xF015, 0xF0FF, fun w => .ldDTVx (fieldX w)⟩,
  ⟨0xF018, 0xF0FF, fun w => .ldSTVx (fieldX w)⟩,
  ⟨0xF01E, 0xF0FF, fun w => .addI (fieldX w)⟩,
  ⟨0xF029, 0xF0FF, fun w => .ldF (fieldX w)⟩,
  ⟨0xF033, 0xF0FF, fun w => .ldB (fieldX w)⟩,
  ⟨0xF055, 0xF0FF, fun w => .storeRegs (fieldX w)⟩,
  ⟨0xF065, 0xF0FF, fun w => .loadRegs (fieldX w)⟩]

/-- The opcode map in the order of R75, the order in which its rows are tried (R73, R74). The bit patterns are the
spec's own, from general knowledge (decisions D1, D2, D3; log 14). -/
def opcodeTable : List OpcodeRow := opcodeRows1 ++ opcodeRows2 ++ opcodeRows3

/-- The instruction of the first matching row; `none` where no row matches (R73). -/
def decode (w : Word) : Option Instr :=
  (opcodeTable.find? (fun r => r.holds w)).map (fun r => r.build w)

/-! ## Words in memory (R55, R70) -/

/-- The big-endian word of two bytes, the one at the lower address first (20_memory.md R55). -/
def wordOfBytes (hi lo : Byte) : Word := hi ++ lo

/-- Bits 15..8 of a word, the byte at the lower address (20_memory.md R55). -/
def highByte (w : Word) : Byte := w.extractLsb' 8 8

/-- Bits 7..0 of a word (20_memory.md R55). -/
def lowByte (w : Word) : Byte := w.extractLsb' 0 8

/-- What decoding a sequence of bytes gives. -/
inductive Decoded where
  /-- An instruction and the bytes after it. -/
  | instr (i : Instr) (rest : List Byte)
  /-- No row matches the first word (60_exceptions.md R201). -/
  | unrecognizedOpcode (w : Word)
  /-- Fewer than the two bytes of a word are left. -/
  | truncated
  deriving DecidableEq, Repr

/-- Decode the first instruction of any bytes: every instruction is one word of two bytes (R70). -/
def decodeBytes : List Byte → Decoded
  | hi :: lo :: rest =>
    match decode (wordOfBytes hi lo) with
    | some i => .instr i rest
    | none => .unrecognizedOpcode (wordOfBytes hi lo)
  | [] | [_] => .truncated

/-- The instruction's word for an opcode-table row: `nbits` bits of `w`, bit 0 the least significant bit of the one
16-bit word, every bit above `nbits` zero. -/
def tableWord (nbits w : Nat) : Word := trunc16 (w % 2 ^ nbits)

/-- The instruction the decoder reads from the table's word, laid out in memory as the hardware stores it. -/
def decodeTableWord (nbits w : Nat) : Option Instr :=
  match decodeBytes [highByte (tableWord nbits w), lowByte (tableWord nbits w)] with
  | .instr i _ => some i
  | .unrecognizedOpcode _ => none
  | .truncated => none

/-! ## The encoder, from the patterns of R75 -/

/-- A register number as the four bits of its field. -/
def regBits (r : Reg) : Nibble := BitVec.ofFin r

/-- A word of four nibbles, bits 15..12 first. -/
def packNibbles (op x y n : Nibble) : Word := op ++ x ++ y ++ n

/-- A word of the form `op nnn`. -/
def packAddr (op : Nibble) (nnn : Addr) : Word := op ++ nnn

/-- A word of the form `op x kk`. -/
def packByte (op x : Nibble) (kk : Byte) : Word := op ++ x ++ kk

/-- The word of an instruction (the pattern column of R75). -/
def encode : Instr → Word
  | .cls => 0x00E0
  | .ret => 0x00EE
  | .sys nnn => packAddr 0x0 nnn
  | .jp nnn => packAddr 0x1 nnn
  | .call nnn => packAddr 0x2 nnn
  | .seByte x kk => packByte 0x3 (regBits x) kk
  | .sneByte x kk => packByte 0x4 (regBits x) kk
  | .seReg x y => packNibbles 0x5 (regBits x) (regBits y) 0x0
  | .ldByte x kk => packByte 0x6 (regBits x) kk
  | .addByte x kk => packByte 0x7 (regBits x) kk
  | .ldReg x y => packNibbles 0x8 (regBits x) (regBits y) 0x0
  | .orReg x y => packNibbles 0x8 (regBits x) (regBits y) 0x1
  | .andReg x y => packNibbles 0x8 (regBits x) (regBits y) 0x2
  | .xorReg x y => packNibbles 0x8 (regBits x) (regBits y) 0x3
  | .addReg x y => packNibbles 0x8 (regBits x) (regBits y) 0x4
  | .sub x y => packNibbles 0x8 (regBits x) (regBits y) 0x5
  | .shr x y => packNibbles 0x8 (regBits x) (regBits y) 0x6
  | .subn x y => packNibbles 0x8 (regBits x) (regBits y) 0x7
  | .shl x y => packNibbles 0x8 (regBits x) (regBits y) 0xE
  | .sneReg x y => packNibbles 0x9 (regBits x) (regBits y) 0x0
  | .ldI nnn => packAddr 0xA nnn
  | .jpV0 nnn => packAddr 0xB nnn
  | .rnd x kk => packByte 0xC (regBits x) kk
  | .drw x y n => packNibbles 0xD (regBits x) (regBits y) n
  | .skp x => packByte 0xE (regBits x) 0x9E
  | .sknp x => packByte 0xE (regBits x) 0xA1
  | .ldVxDT x => packByte 0xF (regBits x) 0x07
  | .ldVxK x => packByte 0xF (regBits x) 0x0A
  | .ldDTVx x => packByte 0xF (regBits x) 0x15
  | .ldSTVx x => packByte 0xF (regBits x) 0x18
  | .addI x => packByte 0xF (regBits x) 0x1E
  | .ldF x => packByte 0xF (regBits x) 0x29
  | .ldB x => packByte 0xF (regBits x) 0x33
  | .storeRegs x => packByte 0xF (regBits x) 0x55
  | .loadRegs x => packByte 0xF (regBits x) 0x65

/-- The bytes of an instruction in memory, lower address first (20_memory.md R55). -/
def encodeBytes (i : Instr) : List Byte := [highByte (encode i), lowByte (encode i)]

end Sys2Proof
end

