-- ==== Sys2Proof/Config.lean ====
section
/-! DEFINITION. What is fixed for a machine: the sizes of 00_scope.md R7, the implementation parameters the spec
leaves as arguments with a default, and the free values. -/

namespace Sys2Proof

/-- `MEM_SIZE` (00_scope.md R7). -/
def memSize : Nat := 4096

/-- `PROGRAM_BASE` (00_scope.md R7). -/
def programBase : Nat := 0x200

/-- `MAX_IMAGE`, the longest program image (00_scope.md R7). -/
def maxImage : Nat := memSize - programBase

/-- `STACK_DEPTH` (00_scope.md R7). -/
def stackDepth : Nat := 32

/-- `DISPLAY_W` (00_scope.md R7). -/
def displayW : Nat := 64

/-- `DISPLAY_H` (00_scope.md R7). -/
def displayH : Nat := 32

/-- `VF_WRITE_ORDER`: which of a result and a flag is written last, visible only when both go to VF
(41_alu.md R120, decision D4). -/
inductive VfWriteOrder where
  | flagLast
  | resultLast
  deriving DecidableEq, Repr

/-- `KEY_INDEX_POLICY`: what SKP and SKNP do with a key index of 16 or more (44_timers_keys.md R188, decision D9). -/
inductive KeyIndexPolicy where
  | fault
  | notPressed
  | lowNibble
  deriving DecidableEq, Repr

/-- The commands of the inbound queue (10_state.md R32, 60_exceptions.md R211). -/
inductive Command where
  | pause
  | step
  | setKeyMap (m : Word)
  | close
  deriving DecidableEq, Repr

/-- What can happen next to a session: the three events of the scheduler loop (60_exceptions.md R211) and the three
moves of the host (R222). -/
inductive Event where
  /-- The instruction-cadence trigger has fired. -/
  | instruction
  /-- The 60 Hz timer trigger has fired. -/
  | timer
  /-- The loop serves the oldest queued command. -/
  | command
  /-- The host appends a command to the queue. -/
  | enqueue (c : Command)
  /-- The host writes the pressed-key bitmask directly. -/
  | writeKeys (m : Word)
  /-- The host reads the framebuffer. -/
  | snapshot
  deriving DecidableEq, Repr, Inhabited

/-- The implementation parameters of 00_scope.md R7 that a model takes as an argument (92_eei_decisions.md).
A machine's state carries them, so that a statement about every state holds for every value of them (log 1). -/
structure Config where
  /-- `FONT`, the 80 bytes at memory [0, 80) (10_state.md R33, decision D12). -/
  font : Vector Byte 80
  /-- `VF_WRITE_ORDER`. -/
  vfWriteOrder : VfWriteOrder
  /-- `KEY_INDEX_POLICY`. -/
  keyIndexPolicy : KeyIndexPolicy
  /-- `QUEUE_BOUND`, `none` for an unbounded queue (60_exceptions.md R220, decision D25). -/
  queueBound : Option Nat
  /-- `INSTR_HZ`, recorded; no rule depends on it (70_reset_and_hazards.md R260). -/
  instrHz : Nat
  /-- `TIMER_HZ`, recorded; no rule depends on it (70_reset_and_hazards.md R261). -/
  timerHz : Nat
  deriving DecidableEq, Repr

/-- Glyphs 0 to 7 of the default font, in the order of their addresses (10_state.md R33). -/
def Config.fontLow : List Byte :=
  [0xF0, 0x90, 0x90, 0x90, 0xF0] ++ [0x20, 0x60, 0x20, 0x20, 0x70] ++
  [0xF0, 0x10, 0xF0, 0x80, 0xF0] ++ [0xF0, 0x10, 0xF0, 0x10, 0xF0] ++
  [0x90, 0x90, 0xF0, 0x10, 0x10] ++ [0xF0, 0x80, 0xF0, 0x10, 0xF0] ++
  [0xF0, 0x80, 0xF0, 0x90, 0xF0] ++ [0xF0, 0x10, 0x20, 0x40, 0x40]

/-- Glyphs 8 to F of the default font (10_state.md R33). -/
def Config.fontHigh : List Byte :=
  [0xF0, 0x90, 0xF0, 0x90, 0xF0] ++ [0xF0, 0x90, 0xF0, 0x10, 0xF0] ++
  [0xF0, 0x90, 0xF0, 0x90, 0x90] ++ [0xE0, 0x90, 0xE0, 0x90, 0xE0] ++
  [0xF0, 0x80, 0x80, 0x80, 0xF0] ++ [0xE0, 0x90, 0x90, 0x90, 0xE0] ++
  [0xF0, 0x80, 0xF0, 0x80, 0xF0] ++ [0xF0, 0x80, 0xF0, 0x80, 0x80]

/-- The default `FONT` (10_state.md R33). PRESUMED: the spec takes these bytes from general knowledge (log 10). -/
def Config.defaultFont : Vector Byte 80 := ⟨⟨Config.fontLow ++ Config.fontHigh⟩, rfl⟩

/-- The values this hardware takes (00_scope.md R7). -/
def Config.default : Config where
  font := Config.defaultFont
  vfWriteOrder := .flagLast
  keyIndexPolicy := .fault
  queueBound := none
  instrHz := 1000
  timerHz := 60

/-- Free value: the byte the n-th RND draws, any byte (41_alu.md R132 `draw8()`, log 2). -/
opaque Config.draw8 : Nat → Byte

/-- Free value: the event served at the n-th choice the spec leaves open (60_exceptions.md R221, log 3). -/
opaque Config.freeEvent : Nat → Event

end Sys2Proof
end

