-- ==== Sys2Proof/Machine/State.lean ====
section
/-! DEFINITION. The state of the block (10_state.md R35), the reasons a step can stop, and the state after reset. -/

namespace Sys2Proof.Machine

/-- The hazards the source leaves unguarded and the spec makes faults (60_exceptions.md R200, R202). -/
inductive Hazard where
  /-- An accessed address at or above 4096; the lowest such address (20_memory.md R52). -/
  | memoryRange (a : Nat)
  /-- CALL with 32 entries in use (40_control.md R103). -/
  | stackOverflow
  /-- RET with no entry in use (40_control.md R104). -/
  | stackUnderflow
  /-- SKP or SKNP with a key index of 16 or more under `KEY_INDEX_POLICY = fault` (44_timers_keys.md R188). -/
  | keyIndex (k : Byte)
  deriving DecidableEq, Repr

/-- The faults a session can end with (60_exceptions.md R200). -/
inductive SessionFault where
  /-- The fetched word matches no row of the opcode map (R201). -/
  | unrecognizedOpcode (w : Word)
  /-- An unguarded hazard (R202). -/
  | boundsHazard (h : Hazard)
  deriving DecidableEq, Repr

/-- The scheduler's mode (10_state.md R32). -/
inductive Mode where
  | running
  | paused
  | closed
  | faulted (f : SessionFault)
  deriving DecidableEq, Repr

/-- The modes in which the loop has returned and no event occurs (60_exceptions.md R210). -/
def Mode.ended : Mode → Bool
  | .running => false
  | .paused => false
  | .closed => true
  | .faulted _ => true

/-- Why a step answers no next state. A fault of the running program is not one of these: its entry is a next state
whose mode is `faulted` (60_exceptions.md R204, log 7). -/
inductive Fault where
  /-- Raised by `step` in mode `closed`: the loop has returned, no event occurs (60_exceptions.md R218). Safe. -/
  | sessionClosed
  /-- Raised by `step` in mode `faulted f`: the loop has returned and `f` is reported to the owner
  (60_exceptions.md R219, R222). Safe. -/
  | sessionFaulted (f : SessionFault)
  deriving DecidableEq, Repr

/-- Why the model gives no meaning. -/
inductive Refusal where
  /-- Raised by an arm of `exec` whose instruction has no meaning yet. Safe. No arm raises it: all 35 are modelled. -/
  | notModelled (mnemonic : String)
  deriving DecidableEq, Repr

/-- Memory as the cells that differ from their reset contents, addresses strictly rising (20_memory.md R50; the form is
`Memory.wf`). -/
abbrev Memory := List Host.Cell

/-- The 256 framebuffer bytes, row-major, 8 pixels a byte (10_state.md R28). -/
abbrev FrameBuffer := Vector Byte 256

/-- What `snapshot()` gives the host: the bitmap and the `dirty` value before the call (43_display.md R170). -/
structure Snapshot where
  bitmap : FrameBuffer
  dirty : Bool
  deriving DecidableEq, Repr

/-- The block's state (10_state.md R35), and after it the model's own fields. -/
structure State where
  /-- General registers V0..VF (R20). -/
  V : Vector Byte 16
  /-- Index register (R23). -/
  I : Word
  /-- Program counter (R24). -/
  PC : Word
  /-- How many return addresses are on the stack, 0..32 (R25). -/
  SP : Fin 33
  /-- The call stack's entries (R25). -/
  stack : Vector Word 32
  /-- Delay timer (R26). -/
  DT : Byte
  /-- Sound timer (R26). -/
  ST : Byte
  /-- The 4096 bytes of memory (R27). -/
  mem : Memory
  /-- The framebuffer (R28). -/
  fb : FrameBuffer
  /-- The framebuffer's consume-once dirty flag (R29). -/
  dirty : Bool
  /-- The pressed-key bitmask the host writes (R30). -/
  keys : Word
  /-- The previous cycle's key sample (R31). -/
  prevKeys : Word
  /-- The scheduler's mode (R32). -/
  mode : Mode
  /-- The inbound commands, oldest first (R32). -/
  queue : List Command
  /-- The model's own: the implementation parameters, changed by no step (log 1). -/
  cfg : Config
  /-- The model's own: the events lined up to be served, oldest first (log 3). -/
  agenda : List Event
  /-- The model's own: how many times the free event choice has been used (log 3). -/
  choiceCount : Nat
  /-- The model's own: how many RND bytes have been drawn (log 2). -/
  drawCount : Nat
  /-- The model's own: the answer of the newest snapshot (log 5). -/
  lastSnapshot : Option Snapshot
  deriving DecidableEq, Repr

/-- The state right after reset of a machine with the parameters `cfg` and an empty program image (10_state.md R35,
70_reset_and_hazards.md R240). The zeros are the spec's decision D11 (log 11). -/
def State.resetWith (cfg : Config) : State where
  V := Vector.replicate 16 0
  I := 0
  PC := 0x200
  SP := 0
  stack := Vector.replicate 32 0
  DT := 0
  ST := 0
  mem := []
  fb := Vector.replicate 256 0
  dirty := false
  keys := 0
  prevKeys := 0
  mode := .running
  queue := []
  cfg := cfg
  agenda := []
  choiceCount := 0
  drawCount := 0
  lastSnapshot := none

/-- The machine right after reset, with the parameter values of 00_scope.md R7. -/
def State.reset : State := State.resetWith Config.default

end Sys2Proof.Machine
end

