-- ==== Sys2Proof/Machine/Memory.lean ====
section
/-! DEFINITION. Memory as a list of cells in canonical form: what an unlisted address reads as, reading and writing one
byte, and the range check of 20_memory.md R52. -/

namespace Sys2Proof.Machine

/-- What a byte of memory holds at reset with no program image, and so what an address with no cell reads as: the font
at [0, 80), 0x00 elsewhere (20_memory.md R53, 70_reset_and_hazards.md R240; log 10, log 11). -/
def initialByte (font : Vector Byte 80) (a : Nat) : Byte := (font[a]?).getD 0

/-- The canonical form: addresses strictly rising, inside memory, and no cell that holds what its address reads as
without it. -/
abbrev Memory.wf (font : Vector Byte 80) (m : Memory) : Prop :=
  m.Pairwise (fun p q => p.1 < q.1) ∧ ∀ c ∈ m, c.1 < memSize ∧ c.2 ≠ initialByte font c.1

/-- The byte at address `a`. -/
def Memory.read (font : Vector Byte 80) : Memory → Nat → Byte
  | [], a => initialByte font a
  | c :: m, a => if c.1 = a then c.2 else Memory.read font m a

/-- Put the byte `b` in front of the cells `m` of higher addresses, unless `a` reads as `b` with no cell. -/
def Memory.consCell (font : Vector Byte 80) (a : Nat) (b : Byte) (m : Memory) : Memory :=
  if b = initialByte font a then m else (a, b) :: m

/-- Memory with the byte `b` at address `a`, in canonical form again. -/
def Memory.write (font : Vector Byte 80) : Memory → Nat → Byte → Memory
  | [], a, b => Memory.consCell font a b []
  | c :: m, a, b =>
    if a < c.1 then Memory.consCell font a b (c :: m)
    else if a = c.1 then Memory.consCell font a b m
    else c :: Memory.write font m a b

/-- Memory with the bytes `bs` at `a, a+1, …` in ascending order (20_memory.md R55). -/
def Memory.writeSeq (font : Vector Byte 80) : Memory → Nat → List Byte → Memory
  | m, _, [] => m
  | m, a, b :: bs => Memory.writeSeq font (Memory.write font m a b) (a + 1) bs

/-- The lowest address at or above `MEM_SIZE` that an access to `len` bytes at `base` touches, if any: addresses are
unbounded naturals, never reduced (20_memory.md R52). -/
def outOfRange (base len : Nat) : Option Nat :=
  if len = 0 ∨ base + len ≤ memSize then none else some (max base memSize)

end Sys2Proof.Machine
end

