-- ==== Sys2Proof/Machine/Ops.lean ====
section
/-! DEFINITION. The named operations over registers, stack and memory that the meanings share, the commit of a cycle, and
fault entry. -/

namespace Sys2Proof.Machine

/-! ## Registers (00_scope.md R9) -/

/-- `V[x]`. -/
def State.reg (s : State) (x : Reg) : Byte := s.V[x]

/-- `V[x] <- b`; every register is writable, none is hard-wired (10_state.md R20). -/
def State.setReg (s : State) (x : Reg) (b : Byte) : State := { s with V := s.V.set x b }

/-- Write `V[k] <- bs[0]`, `V[k+1] <- bs[1]`, … (42_index_memory.md R145). -/
def State.setRegsFrom (s : State) : Nat → List Byte → State
  | _, [] => s
  | k, b :: bs => State.setRegsFrom { s with V := s.V.setIfInBounds k b } (k + 1) bs

/-- `I <- w`. -/
def State.setIndex (s : State) (w : Word) : State := { s with I := w }

/-- `DT <- b`. -/
def State.setDelay (s : State) (b : Byte) : State := { s with DT := b }

/-- `ST <- b`. -/
def State.setSound (s : State) (b : Byte) : State := { s with ST := b }

/-! ## Memory (00_scope.md R10) -/

/-- The byte of memory at address `a`. -/
def State.byteAt (s : State) (a : Nat) : Byte := Memory.read s.cfg.font s.mem a

/-- `MemSeq(a, n)`: the bytes at `a, a+1, …, a+n-1`. -/
def State.bytesAt (s : State) (a n : Nat) : List Byte := (List.range n).map (fun k => s.byteAt (a + k))

/-- The bytes `bs` written at `a, a+1, …`. -/
def State.storeBytes (s : State) (a : Nat) (bs : List Byte) : State :=
  { s with mem := Memory.writeSeq s.cfg.font s.mem a bs }

/-! ## The end of a cycle -/

/-- The commit of a cycle that completes: PC takes the next-PC and `prevKeys` the sample the cycle used, which is `keys`,
since no instruction writes `keys` (40_control.md R100, 44_timers_keys.md R186). -/
def State.retire (s : State) (next : Word) : State := { s with PC := next, prevKeys := s.keys }

/-- The default next-PC, `trunc16(PC + 2)` (40_control.md R100). -/
def State.nextPC (s : State) : Word := trunc16 (s.PC.toNat + 2)

/-- The next-PC of a skip, `trunc16(PC + 4)` (40_control.md R110). -/
def State.skipPC (s : State) : Word := trunc16 (s.PC.toNat + 4)

/-- FAULT ENTRY (60_exceptions.md R204): the cycle commits nothing, so PC still holds the address of the faulting
instruction; the mode becomes `Faulted(f)`; nothing is saved and control goes to no handler. There is no return from a
fault (R205): the only way on is a new session. -/
def State.enterFault (s : State) (f : SessionFault) : State := { s with mode := .faulted f }

/-- The outcome of a cycle that raises `f`. -/
def raise (f : SessionFault) (s : State) : Host.Outcome State Fault Refusal := .next (s.enterFault f)

/-- The outcome of a cycle that raises a bounds hazard (60_exceptions.md R202). -/
def raiseHazard (h : Hazard) (s : State) : Host.Outcome State Fault Refusal := raise (.boundsHazard h) s

/-- The outcome of a cycle that writes `t` and goes on to the default next-PC of the state `s` it started in. -/
def complete (s t : State) : Host.Outcome State Fault Refusal := .next (t.retire s.nextPC)

/-- Check the `len` bytes at `base` before an access: out of range raises `MemoryRange`, else go on
(20_memory.md R52). -/
def checked (s : State) (base len : Nat) (k : Host.Outcome State Fault Refusal) :
    Host.Outcome State Fault Refusal :=
  match outOfRange base len with
  | some a => raiseHazard (.memoryRange a) s
  | none => k

/-- A conditional skip (40_control.md R106 to R110). -/
def skipIf (c : Bool) (s : State) : Host.Outcome State Fault Refusal :=
  .next (s.retire (if c then s.skipPC else s.nextPC))

/-! ## The call stack (10_state.md R25, decision D6) -/

/-- Push a return address, or nothing where 32 entries are in use. -/
def State.push (s : State) (a : Word) : Option State :=
  if h : s.SP.val < 32 then
    some { s with stack := s.stack.set s.SP.val a, SP := ⟨s.SP.val + 1, by omega⟩ }
  else none

/-- Pop: the newest return address and the state without it (the entry itself is kept), or nothing where the stack is
empty. -/
def State.pop (s : State) : Option (Word × State) :=
  if h : 0 < s.SP.val then
    some (s.stack[s.SP.val - 1]'(by omega), { s with SP := ⟨s.SP.val - 1, by omega⟩ })
  else none

/-! ## Fetch -/

/-- The instruction word at PC, or the lowest address of the fetch that is out of range
(40_control.md R100, 20_memory.md R52, R55). -/
def State.fetchWord (s : State) : Word := wordOfBytes (s.byteAt s.PC.toNat) (s.byteAt (s.PC.toNat + 1))

/-- Where an instruction is placed so that the next cycle fetches it: PC, or the program base where no word can be
fetched at PC. -/
def State.fetchBase (s : State) : Word :=
  if s.PC.toNat + 1 < memSize then s.PC else trunc16 programBase

/-- `s` made ready to fetch and run `w` in its very next step: mode `Running`, the word at the fetch address, the
instruction event first on the agenda (log 9). -/
def State.placeWord (s : State) (w : Word) : State :=
  { s.storeBytes s.fetchBase.toNat [highByte w, lowByte w] with
    PC := s.fetchBase, mode := .running, agenda := .instruction :: s.agenda }

end Sys2Proof.Machine
end

