-- ==== Sys2Proof/Machine/Launch.lean ====
section
/-! DEFINITION. The construction of a session from a program image (70_reset_and_hazards.md R240, R241). -/

namespace Sys2Proof.Machine

/-- What launching an image gives. -/
inductive LaunchResult where
  /-- A session in its reset state. -/
  | session (s : State)
  /-- The image is longer than 3584 bytes; no session exists (60_exceptions.md R206). -/
  | romTooLarge
  deriving DecidableEq, Repr

/-- A session with the parameters `cfg` and the image placed verbatim at 0x200 (70_reset_and_hazards.md R240, R241). -/
def launch (cfg : Config) (image : List Byte) : LaunchResult :=
  if image.length ≤ maxImage then .session ((State.resetWith cfg).storeBytes programBase image)
  else .romTooLarge

/-- `s` with `k` instruction events lined up before everything else: `k` steps of a running session are then `k` cycles
(log 9). -/
def State.withInstructionEvents (s : State) (k : Nat) : State :=
  { s with agenda := List.replicate k .instruction ++ s.agenda }

end Sys2Proof.Machine
end

