-- ==== Sys2Proof/Machine/Flags.lean ====
section
/-! DEFINITION. ALU results and the flags written to VF (41_alu.md), and the order of the two writes. Each flag is the
byte 0x01 or 0x00. -/

namespace Sys2Proof.Machine

/-- A flag as the byte VF takes. -/
def flagByte (c : Bool) : Byte := if c then 1 else 0

/-- `trunc8(a + b)` (41_alu.md R122, R127). -/
def sumOf (a b : Byte) : Byte := trunc8 (a.toNat + b.toNat)

/-- Carry: 1 iff the unsigned sum exceeds 255 (41_alu.md R127). -/
def carryOf (a b : Byte) : Byte := flagByte (decide (a.toNat + b.toNat > 255))

/-- `trunc8(a + 256 - b)` (41_alu.md R128, R130). -/
def differenceOf (a b : Byte) : Byte := trunc8 (a.toNat + 256 - b.toNat)

/-- Not borrow, with the strict comparison: 1 iff `a > b` (41_alu.md R128, R130). -/
def notBorrowOf (a b : Byte) : Byte := flagByte (decide (a.toNat > b.toNat))

/-- `b >> 1` (41_alu.md R129). -/
def shiftedRight (b : Byte) : Byte := trunc8 (b.toNat >>> 1)

/-- Bit 0 before the shift (41_alu.md R129). -/
def lowBitOf (b : Byte) : Byte := trunc8 (b.toNat &&& 1)

/-- `trunc8(b << 1)` (41_alu.md R131). -/
def shiftedLeft (b : Byte) : Byte := trunc8 (b.toNat <<< 1)

/-- Bit 7 before the shift (41_alu.md R131). -/
def highBitOf (b : Byte) : Byte := trunc8 ((b.toNat >>> 7) &&& 1)

/-- `writeResultAndFlag(x, r, f)`: the result to `V[x]` and the flag to VF in the order `VF_WRITE_ORDER` gives, which
shows only when `x = 15` (41_alu.md R120). -/
def State.writeResultAndFlag (s : State) (x : Reg) (r f : Byte) : State :=
  match s.cfg.vfWriteOrder with
  | .flagLast => (s.setReg x r).setReg flagReg f
  | .resultLast => (s.setReg flagReg f).setReg x r

end Sys2Proof.Machine
end

