-- ==== Sys2Proof/Machine/Alu.lean ====
section
/-! DEFINITION. Meanings of the register and ALU instructions (41_alu.md). Every operand is read from the state the
cycle starts in (R120). -/

namespace Sys2Proof.Machine

/-- LD Vx,byte (R121). -/
def execLdByte (x : Reg) (kk : Byte) (s : State) : Host.Outcome State Fault Refusal := complete s (s.setReg x kk)

/-- ADD Vx,byte: no flag (R122). -/
def execAddByte (x : Reg) (kk : Byte) (s : State) : Host.Outcome State Fault Refusal :=
  complete s (s.setReg x (sumOf (s.reg x) kk))

/-- LD Vx,Vy (R123). -/
def execLdReg (x y : Reg) (s : State) : Host.Outcome State Fault Refusal := complete s (s.setReg x (s.reg y))

/-- OR Vx,Vy: VF cleared (R124). -/
def execOr (x y : Reg) (s : State) : Host.Outcome State Fault Refusal :=
  complete s (s.writeResultAndFlag x (s.reg x ||| s.reg y) 0)

/-- AND Vx,Vy: VF cleared (R125). -/
def execAnd (x y : Reg) (s : State) : Host.Outcome State Fault Refusal :=
  complete s (s.writeResultAndFlag x (s.reg x &&& s.reg y) 0)

/-- XOR Vx,Vy: VF cleared (R126). -/
def execXor (x y : Reg) (s : State) : Host.Outcome State Fault Refusal :=
  complete s (s.writeResultAndFlag x (s.reg x ^^^ s.reg y) 0)

/-- ADD Vx,Vy: VF is the carry (R127). -/
def execAdd (x y : Reg) (s : State) : Host.Outcome State Fault Refusal :=
  complete s (s.writeResultAndFlag x (sumOf (s.reg x) (s.reg y)) (carryOf (s.reg x) (s.reg y)))

/-- SUB Vx,Vy: VF is 1 iff `V[x] > V[y]` (R128). -/
def execSub (x y : Reg) (s : State) : Host.Outcome State Fault Refusal :=
  complete s (s.writeResultAndFlag x (differenceOf (s.reg x) (s.reg y)) (notBorrowOf (s.reg x) (s.reg y)))

/-- SHR Vx,Vy: `V[y]` shifted right, VF its bit 0 (R129). -/
def execShr (x y : Reg) (s : State) : Host.Outcome State Fault Refusal :=
  complete s (s.writeResultAndFlag x (shiftedRight (s.reg y)) (lowBitOf (s.reg y)))

/-- SUBN Vx,Vy: VF is 1 iff `V[y] > V[x]` (R130). -/
def execSubn (x y : Reg) (s : State) : Host.Outcome State Fault Refusal :=
  complete s (s.writeResultAndFlag x (differenceOf (s.reg y) (s.reg x)) (notBorrowOf (s.reg y) (s.reg x)))

/-- SHL Vx,Vy: `V[y]` shifted left, VF its bit 7 (R131). -/
def execShl (x y : Reg) (s : State) : Host.Outcome State Fault Refusal :=
  complete s (s.writeResultAndFlag x (shiftedLeft (s.reg y)) (highBitOf (s.reg y)))

/-- RND Vx,byte: the free byte of this draw under the mask `kk`, and the next draw is another (R132, log 2). -/
def execRnd (x : Reg) (kk : Byte) (s : State) : Host.Outcome State Fault Refusal :=
  complete s { s.setReg x (Config.draw8 s.drawCount &&& kk) with drawCount := s.drawCount + 1 }

end Sys2Proof.Machine
end

