-- ==== Sys2Proof/Machine/Operands.lean ====
section
/-! DEFINITION. Operand forms: addresses, the index register and what it points at, register dumps, decimal digits, key
samples. -/

namespace Sys2Proof.Machine

/-- An address operand used as a 16-bit value, `zext16(nnn)` (30_encoding.md R72). -/
def targetOf (nnn : Addr) : Word := nnn.setWidth 16

/-- The target of JP V0,addr, `zext16(nnn) + zext16(V[0])` (40_control.md R105). -/
def offsetTarget (nnn : Addr) (v0 : Byte) : Word := trunc16 (nnn.toNat + v0.toNat)

/-- The address in I, as an unbounded natural (20_memory.md R52). -/
def State.indexAddr (s : State) : Nat := s.I.toNat

/-- `trunc16(I + k)` (42_index_memory.md R141, R144, R145). -/
def State.indexPlus (s : State) (k : Nat) : Word := trunc16 (s.I.toNat + k)

/-- The glyph address of LD F,Vx, `zext16(V[x]) × 5`, the value not masked to a digit (42_index_memory.md R142). -/
def glyphAddr (v : Byte) : Word := trunc16 (v.toNat * 5)

/-- The hundreds, tens and ones digits of a byte (42_index_memory.md R143). -/
def decimalDigits (v : Byte) : List Byte :=
  [trunc8 (v.toNat / 100), trunc8 (v.toNat / 10 % 10), trunc8 (v.toNat % 10)]

/-- How many registers `V[0]..V[x]` are: `x` is the index of the last one, not a value (42_index_memory.md R144,
90_conflicts.md C2). -/
def dumpCount (x : Reg) : Nat := x.val + 1

/-- The values of `V[0]..V[x]` in order (42_index_memory.md R144). -/
def State.regsUpTo (s : State) (x : Reg) : List Byte := s.V.toList.take (dumpCount x)

/-- The key sample of the cycle (44_timers_keys.md R186). -/
def State.sample (s : State) : Word := s.keys

/-- `keyPressed(sample, k)`; `none` where `KEY_INDEX_POLICY` makes the index a hazard (44_timers_keys.md R188). -/
def keyPressed (policy : KeyIndexPolicy) (sample : Word) (k : Byte) : Option Bool :=
  if k.toNat < 16 then some (sample.getLsbD k.toNat)
  else match policy with
    | .fault => none
    | .notPressed => some false
    | .lowNibble => some (sample.getLsbD (k.toNat % 16))

/-- The keys held at the previous sample and not held at this one (44_timers_keys.md R185). -/
def State.releasedKeys (s : State) : Word := s.prevKeys &&& ~~~s.sample

/-- `ctz(m)`, the index of the least significant set bit of a non-zero `m` (00_scope.md R8). -/
def lowestKey (m : Word) : Nat := ((List.range 16).find? (fun k => m.getLsbD k)).getD 0

end Sys2Proof.Machine
end

