-- ==== Sys2Proof/Machine/Control.lean ====
section
/-! DEFINITION. Meanings of the control-transfer instructions (40_control.md). -/

namespace Sys2Proof.Machine

/-- SYS addr: a no-op (R101). -/
def execSys (_nnn : Addr) (s : State) : Host.Outcome State Fault Refusal := complete s s

/-- JP addr (R102). -/
def execJp (nnn : Addr) (s : State) : Host.Outcome State Fault Refusal := .next (s.retire (targetOf nnn))

/-- CALL addr: push `PC + 2`, go to `nnn` (R103). -/
def execCall (nnn : Addr) (s : State) : Host.Outcome State Fault Refusal :=
  match s.push s.nextPC with
  | some t => .next (t.retire (targetOf nnn))
  | none => raiseHazard .stackOverflow s

/-- RET: pop the next PC (R104). -/
def execRet (s : State) : Host.Outcome State Fault Refusal :=
  match s.pop with
  | some (a, t) => .next (t.retire a)
  | none => raiseHazard .stackUnderflow s

/-- JP V0,addr (R105). -/
def execJpV0 (nnn : Addr) (s : State) : Host.Outcome State Fault Refusal :=
  .next (s.retire (offsetTarget nnn (s.reg 0)))

/-- SE Vx,byte (R106). -/
def execSeByte (x : Reg) (kk : Byte) (s : State) : Host.Outcome State Fault Refusal := skipIf (s.reg x == kk) s

/-- SNE Vx,byte (R107). -/
def execSneByte (x : Reg) (kk : Byte) (s : State) : Host.Outcome State Fault Refusal := skipIf (s.reg x != kk) s

/-- SE Vx,Vy (R108). -/
def execSeReg (x y : Reg) (s : State) : Host.Outcome State Fault Refusal := skipIf (s.reg x == s.reg y) s

/-- SNE Vx,Vy (R109). -/
def execSneReg (x y : Reg) (s : State) : Host.Outcome State Fault Refusal := skipIf (s.reg x != s.reg y) s

end Sys2Proof.Machine
end

