-- ==== Sys2Proof/Machine/FrameBuffer.lean ====
section
/-! DEFINITION. The sprite-XOR engine (43_display.md R163 to R168): pixels, one half of a sprite byte, one row, the
whole sprite, and clearing. -/

namespace Sys2Proof.Machine

/-- `fb[j]`. -/
def FrameBuffer.byte (fb : FrameBuffer) (j : Nat) : Byte := (fb[j]?).getD 0

/-- Pixel (px, py): bit `7 − (px mod 8)` of `fb[8·py + px/8]` (10_state.md R28). -/
def FrameBuffer.pixel (fb : FrameBuffer) (px py : Nat) : Bool :=
  (FrameBuffer.byte fb (8 * py + px / 8)).getLsbD (7 - px % 8)

/-- `clear()` on the bitmap: all 256 bytes 0x00 (43_display.md R161). -/
def FrameBuffer.blank : FrameBuffer := Vector.replicate 256 0

/-- XOR `bits` into byte `j` and accumulate the collision: a set bit of the buffer byte under `bits`, before the XOR
(43_display.md R163, R166). -/
def drawHalf (j : Nat) (bits : Byte) (r : FrameBuffer × Bool) : FrameBuffer × Bool :=
  (Vector.setIfInBounds r.1 j (FrameBuffer.byte r.1 j ^^^ bits), r.2 || (FrameBuffer.byte r.1 j &&& bits != 0))

/-- The left byte index of display row `py` for an origin column `x0` (43_display.md R165). -/
def leftIndex (x0 py : Nat) : Nat := x0 / 8 + 8 * (py % displayH)

/-- Draw one sprite byte on display row `py`: the left half always, the right half when the origin is not byte-aligned
and the next byte is in the same display row (43_display.md R163, R165, R168). -/
def drawRow (x0 py : Nat) (b : Byte) (r : FrameBuffer × Bool) : FrameBuffer × Bool :=
  let li := leftIndex x0 py
  let s := x0 % 8
  let left := drawHalf li (b >>> s) r
  if s ≠ 0 ∧ (li + 1) % 8 ≠ 0 then drawHalf (li + 1) (trunc8 (b.toNat <<< (8 - s))) left else left

/-- Draw the sprite bytes from sprite row `row` on; rows past display row 31 are dropped (43_display.md R163, R167). -/
def drawRows (x0 y0 : Nat) : List Byte → Nat → FrameBuffer × Bool → FrameBuffer × Bool
  | [], _, r => r
  | b :: bs, row, r => if y0 + row > 31 then r else drawRows x0 y0 bs (row + 1) (drawRow x0 (y0 + row) b r)

/-- `draw(sprite, sx, sy)`: the new bitmap and the collision result; only the origin wraps (43_display.md R163, R164). -/
def draw (sprite : List Byte) (sx sy : Byte) (fb : FrameBuffer) : FrameBuffer × Bool :=
  drawRows (sx.toNat % displayW) (sy.toNat % displayH) sprite 0 (fb, false)

/-- `clear()`: the bitmap cleared and `dirty` set, changed or not (43_display.md R161, R169). -/
def State.clearDisplay (s : State) : State := { s with fb := FrameBuffer.blank, dirty := true }

/-- `draw()` on the state: the bitmap drawn on and `dirty` set, whether or not any bit changed (43_display.md R163,
R169). -/
def State.setDisplay (s : State) (fb : FrameBuffer) : State := { s with fb := fb, dirty := true }

/-- `snapshot()`: the host gets the bitmap and the flag, and the flag is cleared (43_display.md R170). -/
def State.takeSnapshot (s : State) : State :=
  { s with lastSnapshot := some ⟨s.fb, s.dirty⟩, dirty := false }

end Sys2Proof.Machine
end

