-- ==== Sys2Proof/Machine/Display.lean ====
section
/-! DEFINITION. Meanings of the display instructions (43_display.md). -/

namespace Sys2Proof.Machine

/-- CLS: VF is not written (R161). -/
def execCls (s : State) : Host.Outcome State Fault Refusal := complete s s.clearDisplay

/-- DRW Vx,Vy,n: all `n` sprite bytes are read at I (clipped ones too), drawn at the old `V[x]`, `V[y]`, and VF takes the
collision (R162). -/
def execDrw (x y : Reg) (n : Nibble) (s : State) : Host.Outcome State Fault Refusal :=
  checked s s.indexAddr n.toNat
    (let r := draw (s.bytesAt s.indexAddr n.toNat) (s.reg x) (s.reg y) s.fb
     complete s ((s.setDisplay r.1).setReg flagReg (flagByte r.2)))

end Sys2Proof.Machine
end

