-- ==== Sys2Proof/Machine/IndexMemory.lean ====
section
/-! DEFINITION. Meanings of the index-register and memory instructions (42_index_memory.md). -/

namespace Sys2Proof.Machine

/-- LD I,addr (R140). -/
def execLdI (nnn : Addr) (s : State) : Host.Outcome State Fault Refusal := complete s (s.setIndex (targetOf nnn))

/-- ADD I,Vx: no flag (R141). -/
def execAddI (x : Reg) (s : State) : Host.Outcome State Fault Refusal :=
  complete s (s.setIndex (s.indexPlus (s.reg x).toNat))

/-- LD F,Vx (R142). -/
def execLdF (x : Reg) (s : State) : Host.Outcome State Fault Refusal := complete s (s.setIndex (glyphAddr (s.reg x)))

/-- LD B,Vx: three decimal digits at I, I unchanged (R143). -/
def execLdB (x : Reg) (s : State) : Host.Outcome State Fault Refusal :=
  checked s s.indexAddr 3 (complete s (s.storeBytes s.indexAddr (decimalDigits (s.reg x))))

/-- LD [I],Vx: `V[0]..V[x]` stored at I, then I advanced by `x + 1` (R144). -/
def execStoreRegs (x : Reg) (s : State) : Host.Outcome State Fault Refusal :=
  checked s s.indexAddr (dumpCount x)
    (complete s ((s.storeBytes s.indexAddr (s.regsUpTo x)).setIndex (s.indexPlus (dumpCount x))))

/-- LD Vx,[I]: `V[0]..V[x]` loaded from I, then I advanced by `x + 1` (R145). -/
def execLoadRegs (x : Reg) (s : State) : Host.Outcome State Fault Refusal :=
  checked s s.indexAddr (dumpCount x)
    (complete s ((s.setRegsFrom 0 (s.bytesAt s.indexAddr (dumpCount x))).setIndex (s.indexPlus (dumpCount x))))

end Sys2Proof.Machine
end

