-- ==== Sys2Proof/Machine/TimersKeys.lean ====
section
/-! DEFINITION. Meanings of the timer and key instructions (44_timers_keys.md). -/

namespace Sys2Proof.Machine

/-- LD Vx,DT (R180). -/
def execLdVxDT (x : Reg) (s : State) : Host.Outcome State Fault Refusal := complete s (s.setReg x s.DT)

/-- LD DT,Vx (R181). -/
def execLdDTVx (x : Reg) (s : State) : Host.Outcome State Fault Refusal := complete s (s.setDelay (s.reg x))

/-- LD ST,Vx (R182). -/
def execLdSTVx (x : Reg) (s : State) : Host.Outcome State Fault Refusal := complete s (s.setSound (s.reg x))

/-- SKP Vx (R183). -/
def execSkp (x : Reg) (s : State) : Host.Outcome State Fault Refusal :=
  match keyPressed s.cfg.keyIndexPolicy s.sample (s.reg x) with
  | some p => skipIf p s
  | none => raiseHazard (.keyIndex (s.reg x)) s

/-- SKNP Vx (R184). -/
def execSknp (x : Reg) (s : State) : Host.Outcome State Fault Refusal :=
  match keyPressed s.cfg.keyIndexPolicy s.sample (s.reg x) with
  | some p => skipIf (!p) s
  | none => raiseHazard (.keyIndex (s.reg x)) s

/-- LD Vx,K: the lowest key released since the previous cycle; with none, the same instruction runs again next cycle
(R185). -/
def execLdVxK (x : Reg) (s : State) : Host.Outcome State Fault Refusal :=
  if s.releasedKeys = 0 then .next (s.retire s.PC)
  else complete s (s.setReg x (trunc8 (lowestKey s.releasedKeys)))

end Sys2Proof.Machine
end

