-- ==== Sys2Proof/Machine/Scheduler.lean ====
section
/-! DEFINITION. The cycle, the tick, the commands and the choice of the next event (40_control.md R100,
44_timers_keys.md R187, 60_exceptions.md R209 to R224). -/

namespace Sys2Proof.Machine

/-- `cycle()`: fetch, decode, execute and commit one instruction; the first fault in that order is the one raised
(40_control.md R100, 60_exceptions.md R203). -/
def cycle (s : State) : Host.Outcome State Fault Refusal :=
  checked s s.PC.toNat 2
    (match decode s.fetchWord with
     | some i => exec i s
     | none => raise (.unrecognizedOpcode s.fetchWord) s)

/-- A timer one step toward zero, floored there (44_timers_keys.md R187). -/
def countDown (b : Byte) : Byte := if b = 0 then 0 else b - 1

/-- `tick()` (44_timers_keys.md R187). -/
def State.tick (s : State) : State := { s with DT := countDown s.DT, ST := countDown s.ST }

/-- The other of `Running` and `Paused` (60_exceptions.md R215). -/
def Mode.toggle : Mode → Mode
  | .running => .paused
  | .paused => .running
  | .closed => .closed
  | .faulted f => .faulted f

/-- One command taken from the queue; Close discards the commands behind it (60_exceptions.md R215 to R218, decision D25,
log 8). -/
def serveCommand (c : Command) (s : State) : Host.Outcome State Fault Refusal :=
  match c with
  | .pause => .next { s with mode := s.mode.toggle }
  | .step => if s.mode = .paused then cycle s else .next s
  | .setKeyMap m => .next { s with keys := m }
  | .close => .next { s with mode := .closed, queue := [] }

/-- Serve one event (60_exceptions.md R210, R212, R222). -/
def serve (e : Event) (s : State) : Host.Outcome State Fault Refusal :=
  match e with
  | .instruction => if s.mode = .running then cycle s else .next s
  | .timer => .next s.tick
  | .command =>
    match s.queue with
    | [] => .next s
    | c :: q => serveCommand c { s with queue := q }
  | .enqueue c => .next { s with queue := s.queue ++ [c] }
  | .writeKeys m => .next { s with keys := m }
  | .snapshot => .next s.takeSnapshot

/-- Under a finite `QUEUE_BOUND` an enqueue into a full queue is not enabled (60_exceptions.md R220). -/
def State.queueFull (s : State) : Bool :=
  match s.cfg.queueBound with
  | none => false
  | some n => decide (n ≤ s.queue.length)

/-- Whether the event can be served now: a trigger can always fire, a command is ready when the queue is not empty
(60_exceptions.md R211), and after the end only a snapshot is (R210, R224). -/
def eventReady (s : State) (e : Event) : Bool :=
  match e with
  | .snapshot => true
  | .instruction => !s.mode.ended
  | .timer => !s.mode.ended
  | .command => !s.mode.ended && !s.queue.isEmpty
  | .enqueue _ => !s.mode.ended && !s.queueFull
  | .writeKeys _ => !s.mode.ended

/-- The first ready event of a list and the list without it; an event that is not ready stays (log 4). -/
def takeReady (ready : Event → Bool) : List Event → Option (Event × List Event)
  | [] => none
  | e :: es =>
    if ready e then some (e, es)
    else match takeReady ready es with
      | some (f, rest) => some (f, e :: rest)
      | none => none

/-- The event a live session serves where its agenda holds no ready one: the free choice, or the instruction event where
that choice is not ready (60_exceptions.md R221; log 3, log 4). -/
def State.freeChoice (s : State) : Event :=
  if eventReady s (Config.freeEvent s.choiceCount) then Config.freeEvent s.choiceCount else .instruction

/-- The event that is served next and the state it is served in; nothing after the end (60_exceptions.md R210, R212). -/
def chooseEvent (s : State) : Option (Event × State) :=
  match takeReady (eventReady s) s.agenda with
  | some (e, rest) => some (e, { s with agenda := rest })
  | none => if s.mode.ended then none else some (s.freeChoice, { s with choiceCount := s.choiceCount + 1 })

/-- Why no event is served: the loop has returned (60_exceptions.md R218, R219). -/
def endOf (m : Mode) : Fault :=
  match m with
  | .faulted f => .sessionFaulted f
  | .running | .paused | .closed => .sessionClosed

/-- One iteration of the scheduler loop, or one move of the host: exactly one event (60_exceptions.md R212). -/
def iterate (s : State) : Host.Outcome State Fault Refusal :=
  match chooseEvent s with
  | some (e, t) => serve e t
  | none => .fault (endOf s.mode)

end Sys2Proof.Machine
end

