-- ==== Sys2Proof/Machine/Step.lean ====
section
/-! DEFINITION. One step of the machine, and the state whose very next step runs a given instruction word. -/

namespace Sys2Proof.Machine

/-- One step: one iteration of the scheduler loop, or one move of the host (60_exceptions.md R212). -/
def step (s : State) : Host.Outcome State Fault Refusal := iterate s

/-- `s` with an opcode-table word placed so that the next step fetches and runs it (log 9). -/
def State.withFetchWord (s : State) (nbits w : Nat) : State := s.placeWord (tableWord nbits w)

end Sys2Proof.Machine
end

