-- ==== Sys2Proof/Safety.lean ====
section
/-! DEFINITION. The terms claims use: canonical memory, the bound on PC, the queue bound, a parked state, a safe run, and
weak fairness of a run. -/

namespace Sys2Proof.Safety

open Sys2Proof.Machine

/-- The state's memory is in canonical form. -/
abbrev memOk (s : State) : Prop := Memory.wf s.cfg.font s.mem

/-- PC is at most the largest target of JP V0,addr and every stack entry at most the largest return address, so that PC
arithmetic never overflows 16 bits (10_state.md R24). -/
abbrev pcBounded (s : State) : Prop := s.PC.toNat ≤ 0x10FE ∧ ∀ k : Fin 32, s.stack[k].toNat ≤ 0x1000

/-- The queue is within `QUEUE_BOUND` (60_exceptions.md R220). -/
def queueBounded (s : State) : Bool :=
  match s.cfg.queueBound with
  | none => true
  | some n => decide (s.queue.length ≤ n)

/-- PC holds the address of a jump to itself (70_reset_and_hazards.md R263). -/
def parked (s : State) : Bool :=
  decide (s.PC.toNat + 1 < memSize) && s.fetchWord == packAddr 0x1 (s.PC.setWidth 12)

/-- A completed cycle that wrote no more than the general registers `dest` marks: PC is `next`, `prevKeys` the sample,
every other register, every other field and every byte of memory as before. -/
def wroteRegs (s t : State) (next : Word) (dest : Reg → Bool) : Prop :=
  t = { s with V := t.V, PC := next, prevKeys := s.keys } ∧
  (∀ r, dest r = false → t.reg r = s.reg r) ∧
  ∀ a, t.byteAt a = s.byteAt a

/-- A completed cycle that wrote the result `v` to `V[x]` and the flag `f` to VF and nothing else; where both are VF,
`VF_WRITE_ORDER` says which stays (41_alu.md R120). -/
def wroteResultAndFlag (s t : State) (x : Reg) (v f : Byte) : Prop :=
  wroteRegs s t (s.PC + 2) (fun r => r == x || r == 15) ∧
  (x ≠ 15 → t.reg x = v ∧ t.reg 15 = f) ∧
  (x = 15 → s.cfg.vfWriteOrder = .flagLast → t.reg 15 = f) ∧
  (x = 15 → s.cfg.vfWriteOrder = .resultLast → t.reg 15 = v)

/-- The sprite's bit over pixel (px, py) when its origin is (x0, y0) (43_display.md R172): rows downward from `y0`, the
eight bits of a row rightward from `x0`, the most significant first. -/
def spritePixel (sprite : List Byte) (x0 y0 px py : Nat) : Bool :=
  decide (y0 ≤ py) && decide (x0 ≤ px) && decide (px < x0 + 8) &&
    ((sprite[py - y0]?).getD 0).getLsbD (7 - (px - x0))

/-- The mode is not `Faulted`. -/
def faultFree (s : State) : Bool :=
  match s.mode with
  | .faulted _ => false
  | .running | .paused | .closed => true

/-- `k` steps from `s` all give a next state, and none of those states has faulted. -/
def safeFor : Nat → State → Bool
  | 0, s => faultFree s
  | k + 1, s =>
    match step s with
    | .next t => faultFree s && safeFor k t
    | .fault _ => false
    | .refused _ => false

/-- An infinite run of the session with the event served at each point (60_exceptions.md R212). The events are the ones
the loop and the host produce, whatever chose them. -/
structure Run where
  state : Nat → State
  event : Nat → Event
  ready : ∀ n, eventReady (state n) (event n) = true
  serves : ∀ n, serve (event n) (state n) = .next (state (n + 1))

/-- Weak fairness, which the spec assumes of executions (60_exceptions.md R221): while the mode is `Running` or `Paused`
ticks keep occurring, while it is `Running` instruction events keep occurring, and a queued command is eventually
served. -/
def weaklyFair (r : Run) : Prop :=
  ∀ n,
    (∃ m, n ≤ m ∧ (r.event m = .timer ∨ (r.state m).mode.ended = true)) ∧
    (∃ m, n ≤ m ∧ (r.event m = .instruction ∨ (r.state m).mode ≠ .running)) ∧
    (∃ m, n ≤ m ∧ (r.event m = .command ∨ (r.state m).queue = [] ∨ (r.state m).mode.ended = true))

end Sys2Proof.Safety
end

