-- ==== Sys2Proof/Certificates/Slice0/Obligations.lean ====
section
/-! DEFINITION. The statements for the provers. `next t` is the only way an instruction ends. That a completed cycle stores
its key sample in `prevKeys` is 44_timers_keys.md R186 (the spec's decision D10, log 15). `s.PC + 2` and `s.PC + 4`
are 16-bit sums; `[a, b)` ranges are half-open. -/

open Sys2Proof Sys2Proof.Machine Sys2Proof.Safety

/-! ## Encoding -/

/-- Words written out from 30_encoding.md R75, one or two of each family, decode to the instructions they stand for. -/
def Obligations.WrittenWordsDecode : Prop :=
  decode 0x00E0 = some .cls ∧ decode 0x00EE = some .ret ∧ decode 0x0123 = some (.sys 0x123) ∧
  decode 0x1234 = some (.jp 0x234) ∧ decode 0xB123 = some (.jpV0 0x123) ∧ decode 0x3342 = some (.seByte 3 0x42) ∧
  decode 0x7101 = some (.addByte 1 0x01) ∧ decode 0x8125 = some (.sub 1 2) ∧ decode 0x812E = some (.shl 1 2) ∧
  decode 0xA2F0 = some (.ldI 0x2F0) ∧ decode 0xF455 = some (.storeRegs 4) ∧ decode 0xD126 = some (.drw 1 2 6) ∧
  decode 0xEAA1 = some (.sknp 10) ∧ decode 0xF50A = some (.ldVxK 5) ∧ decode 0x5121 = none ∧ decode 0xFFFF = none

/-- Decoding the word, or the bytes, the encoder writes for a well-formed instruction gives that instruction, with every
operand at every value (30_encoding.md section 2; the bit patterns are the spec's decision D1, log 14). -/
def Obligations.DecodeOfEncodeIsTheInstruction : Prop :=
  ∀ i : Instr, i.wf = true →
    decode (encode i) = some i ∧ ∀ rest, decodeBytes (encodeBytes i ++ rest) = .instr i rest

/-- Every word that decodes is the encoding of the instruction it decodes to, and that instruction is well formed: no
bit of a legal word is ignored (30_encoding.md section 2, decision D2). -/
def Obligations.EncodeOfDecodedWordIsTheWord : Prop :=
  ∀ (w : Word) (i : Instr), decode w = some i → i.wf = true ∧ encode i = w

/-- The illegal words are exactly those 30_encoding.md section 3 lists by major nibble (the masks are decision D2). -/
def Obligations.IllegalWordsAreTheListedOnes : Prop :=
  ∀ w : Word, decode w = none ↔
    (w.extractLsb' 12 4 = 0x5 ∧ fieldN w ≠ 0) ∨
    (w.extractLsb' 12 4 = 0x8 ∧ fieldN w ∈ ([0x8, 0x9, 0xA, 0xB, 0xC, 0xD, 0xF] : List Nibble)) ∨
    (w.extractLsb' 12 4 = 0x9 ∧ fieldN w ≠ 0) ∨
    (w.extractLsb' 12 4 = 0xE ∧ fieldKk w ∉ ([0x9E, 0xA1] : List Byte)) ∨
    (w.extractLsb' 12 4 = 0xF ∧
      fieldKk w ∉ ([0x07, 0x0A, 0x15, 0x18, 0x1E, 0x29, 0x33, 0x55, 0x65] : List Byte))

/-- The words 0x00E0 and 0x00EE decode as CLS and RET, every other word 0x0000..0x0FFF as SYS, and no two other rows of
the map match one word (30_encoding.md section 2; the order is decision D3, log 14). -/
def Obligations.ClsAndRetComeBeforeSys : Prop :=
  (∀ nnn : Addr, decode (packAddr 0x0 nnn) =
    if nnn = 0x0E0 then some .cls else if nnn = 0x0EE then some .ret else some (.sys nnn)) ∧
  (∀ (w : Word) (j k : Fin 35), j < k →
    (opcodeTable[j.val]?.any fun r => r.holds w) = true → (opcodeTable[k.val]?.any fun r => r.holds w) = true →
    (j = 0 ∨ j = 1) ∧ k = 2)

/-! ## Reset and launch -/

/-- The reset state for any parameters: PC at 0x200 and mode Running as the spec says, the font at [0, 80), and zero
everywhere else, which is the spec's own decision D11 (log 11). -/
def Obligations.ResetStateIsTheListedOne : Prop :=
  ∀ cfg : Config, (State.resetWith cfg).PC = 0x200 ∧ (State.resetWith cfg).mode = .running ∧
    (∀ r, (State.resetWith cfg).reg r = 0) ∧ (State.resetWith cfg).I = 0 ∧ (State.resetWith cfg).SP = 0 ∧
    (∀ k : Fin 32, (State.resetWith cfg).stack[k] = 0) ∧ (State.resetWith cfg).DT = 0 ∧
    (State.resetWith cfg).ST = 0 ∧ (∀ px py, FrameBuffer.pixel (State.resetWith cfg).fb px py = false) ∧
    (State.resetWith cfg).dirty = false ∧ (State.resetWith cfg).keys = 0 ∧ (State.resetWith cfg).prevKeys = 0 ∧
    (State.resetWith cfg).queue = [] ∧ (State.resetWith cfg).cfg = cfg ∧
    (∀ a : Fin 80, (State.resetWith cfg).byteAt a = cfg.font[a]) ∧
    (∀ a, 80 ≤ a → (State.resetWith cfg).byteAt a = 0)

/-- The reset state meets the three invariants that every step keeps. -/
def Obligations.ResetMeetsTheInvariants : Prop :=
  ∀ cfg : Config, memOk (State.resetWith cfg) ∧ pcBounded (State.resetWith cfg) ∧
    queueBounded (State.resetWith cfg) = true

/-- An image of at most 3584 bytes starts a session whose memory holds byte k of it at 0x200 + k and is otherwise as at
reset, with the first two bytes as the first instruction word, high byte first; nothing else differs from reset. A
longer image starts none (70_reset_and_hazards.md R241). -/
def Obligations.LaunchPlacesTheImage : Prop :=
  ∀ (cfg : Config) (image : List Byte),
    (image.length ≤ 3584 → ∃ s, launch cfg image = .session s ∧
      (∀ k b, image[k]? = some b → s.byteAt (0x200 + k) = b) ∧
      (∀ a, a < 0x200 ∨ 0x200 + image.length ≤ a → s.byteAt a = (State.resetWith cfg).byteAt a) ∧
      (∀ b0 b1, image[0]? = some b0 → image[1]? = some b1 → s.fetchWord = b0 ++ b1) ∧
      s = { State.resetWith cfg with mem := s.mem }) ∧
    (3584 < image.length → launch cfg image = .romTooLarge)

/-! ## Control transfer -/

/-- SYS changes nothing but PC and the stored sample. -/
def Obligations.SysIsANoOp : Prop :=
  ∀ (nnn : Addr) (s : State), exec (.sys nnn) s = .next { s with PC := s.PC + 2, prevKeys := s.keys }

/-- JP goes to its address, odd or at the end of memory alike, and changes nothing else but the stored sample. -/
def Obligations.JumpGoesToItsAddress : Prop :=
  ∀ (nnn : Addr) (s : State), ∃ t, exec (.jp nnn) s = .next t ∧ t.PC.toNat = nnn.toNat ∧
    wroteRegs s t t.PC (fun _ => false)

/-- JP V0 goes to the sum of its address and V0, which is not reduced and never wraps, and changes nothing else but the
stored sample. -/
def Obligations.JumpV0GoesToTheSum : Prop :=
  ∀ (nnn : Addr) (s : State), ∃ t, exec (.jpV0 nnn) s = .next t ∧
    t.PC.toNat = nnn.toNat + (s.reg 0).toNat ∧ wroteRegs s t t.PC (fun _ => false)

/-- CALL with a free entry pushes PC + 2 and goes to its address; every other stack entry and all else is unchanged but
the stored sample. With 32 entries in use it commits nothing and the session faults (the fault is decision D6, log 13). -/
def Obligations.CallPushesTheReturnAddress : Prop :=
  ∀ (nnn : Addr) (s : State),
    (s.SP.val < 32 → ∃ t, exec (.call nnn) s = .next t ∧
      t.stack[s.SP.val]? = some (s.PC + 2) ∧
      (∀ k, k ≠ s.SP.val → t.stack[k]? = s.stack[k]?) ∧
      t.SP.val = s.SP.val + 1 ∧ t.PC.toNat = nnn.toNat ∧
      t = { s with stack := t.stack, SP := t.SP, PC := t.PC, prevKeys := s.keys }) ∧
    (s.SP.val = 32 →
      exec (.call nnn) s = .next { s with mode := .faulted (.boundsHazard .stackOverflow) })

/-- RET with an entry in use goes to the newest entry and frees it without clearing it; all else is unchanged but the
stored sample. With an empty stack it commits nothing and the session faults (the fault is decision D6, log 13). -/
def Obligations.ReturnPopsTheNewestAddress : Prop :=
  ∀ s : State,
    (0 < s.SP.val → ∃ t, exec .ret s = .next t ∧
      s.stack[s.SP.val - 1]? = some t.PC ∧ t.SP.val = s.SP.val - 1 ∧
      t = { s with SP := t.SP, PC := t.PC, prevKeys := s.keys }) ∧
    (s.SP.val = 0 → exec .ret s = .next { s with mode := .faulted (.boundsHazard .stackUnderflow) })

/-- SE and SNE skip one word exactly when their comparison holds, and write nothing but PC and the stored sample
(40_control.md R106 to R109; the stored sample is 44_timers_keys.md R186, decision D10, log 15). -/
def Obligations.SkipsFollowTheirComparison : Prop :=
  ∀ (x y : Reg) (kk : Byte) (s : State),
    (∃ t, exec (.seByte x kk) s = .next t ∧
      wroteRegs s t (if s.reg x = kk then s.PC + 4 else s.PC + 2) (fun _ => false)) ∧
    (∃ t, exec (.sneByte x kk) s = .next t ∧
      wroteRegs s t (if s.reg x = kk then s.PC + 2 else s.PC + 4) (fun _ => false)) ∧
    (∃ t, exec (.seReg x y) s = .next t ∧
      wroteRegs s t (if s.reg x = s.reg y then s.PC + 4 else s.PC + 2) (fun _ => false)) ∧
    (∃ t, exec (.sneReg x y) s = .next t ∧
      wroteRegs s t (if s.reg x = s.reg y then s.PC + 2 else s.PC + 4) (fun _ => false))

/-! ## Registers and ALU -/

/-- LD Vx,byte, ADD Vx,byte and LD Vx,Vy write V[x] alone: no flag, VF only as a destination (41_alu.md R121 to R123;
stored sample: R186, decision D10, log 15). -/
def Obligations.LoadsAndImmediateAddWriteOneRegister : Prop :=
  ∀ (x y : Reg) (kk : Byte) (s : State),
    (∃ t, exec (.ldByte x kk) s = .next t ∧ t.reg x = kk ∧ wroteRegs s t (s.PC + 2) (fun r => r == x)) ∧
    (∃ t, exec (.addByte x kk) s = .next t ∧ (t.reg x).toNat = ((s.reg x).toNat + kk.toNat) % 256 ∧
      wroteRegs s t (s.PC + 2) (fun r => r == x)) ∧
    (∃ t, exec (.ldReg x y) s = .next t ∧ t.reg x = s.reg y ∧ wroteRegs s t (s.PC + 2) (fun r => r == x))

/-- OR, AND and XOR write the bitwise result of the old values and clear VF; where x is 15 the order parameter decides
(41_alu.md R124 to R126; order of the two writes: R120, decision D4, log 1; stored sample: R186, decision D10, log 15). -/
def Obligations.LogicClearsTheFlag : Prop :=
  ∀ (x y : Reg) (s : State),
    (∃ t, exec (.orReg x y) s = .next t ∧ wroteResultAndFlag s t x (s.reg x ||| s.reg y) 0) ∧
    (∃ t, exec (.andReg x y) s = .next t ∧ wroteResultAndFlag s t x (s.reg x &&& s.reg y) 0) ∧
    (∃ t, exec (.xorReg x y) s = .next t ∧ wroteResultAndFlag s t x (s.reg x ^^^ s.reg y) 0)

/-- ADD Vx,Vy writes the low eight bits of the sum and VF 1 iff the sum exceeds 255, else 0 (41_alu.md R127;
order of the two writes: R120, decision D4, log 1; stored sample: R186, decision D10, log 15). -/
def Obligations.AddSetsTheCarry : Prop :=
  ∀ (x y : Reg) (s : State), ∃ t, exec (.addReg x y) s = .next t ∧
    wroteResultAndFlag s t x (s.reg x + s.reg y)
      (if (s.reg x).toNat + (s.reg y).toNat > 255 then 1 else 0)

/-- SUB and SUBN write the wrapped difference and VF 1 iff the minuend is strictly greater, else 0 (41_alu.md R128, R130;
order of the two writes: R120, decision D4, log 1; stored sample: R186, decision D10, log 15). -/
def Obligations.SubtractionsSetNotBorrow : Prop :=
  ∀ (x y : Reg) (s : State),
    (∃ t, exec (.sub x y) s = .next t ∧
      wroteResultAndFlag s t x (s.reg x - s.reg y) (if s.reg y < s.reg x then 1 else 0)) ∧
    (∃ t, exec (.subn x y) s = .next t ∧
      wroteResultAndFlag s t x (s.reg y - s.reg x) (if s.reg x < s.reg y then 1 else 0))

/-- SHR and SHL shift V[y] by one, not V[x], and VF takes the bit shifted out (41_alu.md R129, R131;
order of the two writes: R120, decision D4, log 1; stored sample: R186, decision D10, log 15). -/
def Obligations.ShiftsReadVyAndKeepTheLostBit : Prop :=
  ∀ (x y : Reg) (s : State),
    (∃ t, exec (.shr x y) s = .next t ∧
      wroteResultAndFlag s t x (s.reg y >>> 1) (if (s.reg y).getLsbD 0 = true then 1 else 0)) ∧
    (∃ t, exec (.shl x y) s = .next t ∧
      wroteResultAndFlag s t x (s.reg y <<< 1) (if (s.reg y).getLsbD 7 = true then 1 else 0))

/-- RND writes the free byte of this draw under its mask, so every bit outside the mask is 0, and moves to the next draw
(41_alu.md section 5; the free byte is log 2). -/
def Obligations.RandomIsMasked : Prop :=
  ∀ (x : Reg) (kk : Byte) (s : State), ∃ t, exec (.rnd x kk) s = .next t ∧
    t.reg x = Config.draw8 s.drawCount &&& kk ∧ t.reg x &&& ~~~kk = 0 ∧ t.drawCount = s.drawCount + 1 ∧
    (∀ r, r ≠ x → t.reg r = s.reg r) ∧ (∀ a, t.byteAt a = s.byteAt a) ∧
    t = { s with V := t.V, drawCount := t.drawCount, PC := s.PC + 2, prevKeys := s.keys }

/-! ## Index register and memory -/

/-- LD I, ADD I and LD F write I alone: the 12-bit address, the sum modulo 2^16 with no flag, five times V[x]
(42_index_memory.md R140 to R142; that I wraps modulo 2^16 and is never masked is decision D7, log 18). -/
def Obligations.IndexLoadsWriteTheIndexAlone : Prop :=
  ∀ (x : Reg) (nnn : Addr) (s : State),
    (∃ t, exec (.ldI nnn) s = .next t ∧ t.I.toNat = nnn.toNat ∧
      t = { s with I := t.I, PC := s.PC + 2, prevKeys := s.keys }) ∧
    (∃ t, exec (.addI x) s = .next t ∧ t.I.toNat = (s.I.toNat + (s.reg x).toNat) % 65536 ∧
      t = { s with I := t.I, PC := s.PC + 2, prevKeys := s.keys }) ∧
    (∃ t, exec (.ldF x) s = .next t ∧ t.I.toNat = (s.reg x).toNat * 5 ∧
      t = { s with I := t.I, PC := s.PC + 2, prevKeys := s.keys })

/-- LD B in range stores the three decimal digits of V[x] at I and changes no other byte and no register; out of range it
commits nothing and the session faults with the lowest address past memory (the fault is decision D5, log 13). -/
def Obligations.DecimalDigitsAreStored : Prop :=
  ∀ (x : Reg) (s : State), memOk s →
    (s.indexAddr + 2 < 4096 → ∃ t, exec (.ldB x) s = .next t ∧
      (t.byteAt s.indexAddr).toNat = (s.reg x).toNat / 100 ∧
      (t.byteAt (s.indexAddr + 1)).toNat = (s.reg x).toNat / 10 % 10 ∧
      (t.byteAt (s.indexAddr + 2)).toNat = (s.reg x).toNat % 10 ∧
      (∀ a, a < s.indexAddr ∨ s.indexAddr + 3 ≤ a → t.byteAt a = s.byteAt a) ∧
      t = { s with mem := t.mem, PC := s.PC + 2, prevKeys := s.keys }) ∧
    (4096 ≤ s.indexAddr + 2 → exec (.ldB x) s =
      .next { s with mode := .faulted (.boundsHazard (.memoryRange (max s.indexAddr 4096))) })

/-- LD [I],Vx in range stores V[0]..V[x] at I, I+1, … and advances I by x + 1; no other byte and no general register
changes. Out of range it commits nothing and the session faults (the fault is decision D5, log 13). -/
def Obligations.RegisterDumpStoresAndAdvances : Prop :=
  ∀ (x : Reg) (s : State), memOk s →
    (s.indexAddr + x.val < 4096 → ∃ t, exec (.storeRegs x) s = .next t ∧
      (∀ r : Reg, r ≤ x → t.byteAt (s.indexAddr + r.val) = s.reg r) ∧
      (∀ a, a < s.indexAddr ∨ s.indexAddr + x.val + 1 ≤ a → t.byteAt a = s.byteAt a) ∧
      t.I.toNat = s.indexAddr + x.val + 1 ∧
      t = { s with mem := t.mem, I := t.I, PC := s.PC + 2, prevKeys := s.keys }) ∧
    (4096 ≤ s.indexAddr + x.val → exec (.storeRegs x) s =
      .next { s with mode := .faulted (.boundsHazard (.memoryRange (max s.indexAddr 4096))) })

/-- LD Vx,[I] in range loads V[0]..V[x] from I, I+1, … and advances I by x + 1; the registers above x and every byte of
memory are unchanged. Out of range it commits nothing and the session faults (the fault is decision D5, log 13). -/
def Obligations.RegisterLoadReadsAndAdvances : Prop :=
  ∀ (x : Reg) (s : State),
    (s.indexAddr + x.val < 4096 → ∃ t, exec (.loadRegs x) s = .next t ∧
      (∀ r : Reg, r ≤ x → t.reg r = s.byteAt (s.indexAddr + r.val)) ∧
      (∀ r : Reg, x < r → t.reg r = s.reg r) ∧
      (∀ a, t.byteAt a = s.byteAt a) ∧
      t.I.toNat = s.indexAddr + x.val + 1 ∧
      t = { s with V := t.V, I := t.I, PC := s.PC + 2, prevKeys := s.keys }) ∧
    (4096 ≤ s.indexAddr + x.val → exec (.loadRegs x) s =
      .next { s with mode := .faulted (.boundsHazard (.memoryRange (max s.indexAddr 4096))) })

/-- After a register dump, with I set back and V[0]..V[x] set to anything, the load with the same x restores them
(42_index_memory.md section 2, 95_test_vectors.md S6). -/
def Obligations.LoadUndoesDump : Prop :=
  ∀ (x : Reg) (s : State) (V' : Vector Byte 16), memOk s → s.indexAddr + x.val < 4096 →
    ∃ t u, exec (.storeRegs x) s = .next t ∧ exec (.loadRegs x) { t with I := s.I, V := V' } = .next u ∧
      (∀ r : Reg, r ≤ x → u.reg r = s.reg r) ∧ u.I = t.I

/-- A store of LD [I],Vx or LD B,Vx into the word right after itself is what the next cycle fetches
(70_reset_and_hazards.md R248, 20_memory.md section 4). -/
def Obligations.StoreIsSeenByTheNextFetch : Prop :=
  ∀ (x : Reg) (s : State), memOk s → s.indexAddr = s.PC.toNat + 2 →
    (1 ≤ x.val → s.indexAddr + x.val < 4096 → ∃ t, exec (.storeRegs x) s = .next t ∧
      t.fetchWord = s.reg 0 ++ s.reg 1) ∧
    (s.indexAddr + 2 < 4096 → ∃ t, exec (.ldB x) s = .next t ∧
      t.fetchWord = trunc8 ((s.reg x).toNat / 100) ++ trunc8 ((s.reg x).toNat / 10 % 10))

/-! ## Display -/

/-- CLS turns every pixel off and sets dirty; no register and no byte of memory changes (43_display.md R161; that dirty is
set even where no pixel was lit is decision D17, log 16). -/
def Obligations.ClearTurnsEveryPixelOff : Prop :=
  ∀ s : State, ∃ t, exec .cls s = .next t ∧ (∀ j : Fin 256, t.fb[j] = 0) ∧ t.dirty = true ∧
    (∀ a, t.byteAt a = s.byteAt a) ∧
    t = { s with fb := t.fb, dirty := t.dirty, PC := s.PC + 2, prevKeys := s.keys }

/-- DRW with its n bytes in range draws them at the old (V[x], V[y]), sets VF to 1 iff a lit pixel was turned off, else 0,
and sets dirty (also for n = 0, decision D17); I, the other registers and memory are unchanged. With a byte out of range,
a clipped one too (decision D18), it commits nothing and the session faults (log 13, log 16). -/
def Obligations.DrawSetsTheCollisionFlag : Prop :=
  ∀ (x y : Reg) (n : Nibble) (s : State),
    (n = 0 ∨ s.indexAddr + n.toNat ≤ 4096 → ∃ t, exec (.drw x y n) s = .next t ∧
      t.fb = (draw (s.bytesAt s.indexAddr n.toNat) (s.reg x) (s.reg y) s.fb).1 ∧
      t.reg 15 = (if (draw (s.bytesAt s.indexAddr n.toNat) (s.reg x) (s.reg y) s.fb).2 = true then 1 else 0) ∧
      (∀ r, r ≠ 15 → t.reg r = s.reg r) ∧ (∀ a, t.byteAt a = s.byteAt a) ∧
      (n = 0 → t.fb = s.fb ∧ t.reg 15 = 0) ∧
      t = { s with V := t.V, fb := t.fb, dirty := true, PC := s.PC + 2, prevKeys := s.keys }) ∧
    (n ≠ 0 → 4096 < s.indexAddr + n.toNat → exec (.drw x y n) s =
      .next { s with mode := .faulted (.boundsHazard (.memoryRange (max s.indexAddr 4096))) })

/-- The byte-wise draw engine is its pixel form: with the origin wrapped into the display, a pixel is toggled iff a bit of
the sprite lies over it, pixels past the right and bottom edges are dropped, and the collision is true iff a toggled
pixel was lit before (43_display.md section 3, R172). -/
def Obligations.DrawEngineIsItsPixelForm : Prop :=
  ∀ (sprite : List Byte) (sx sy : Byte) (fb : FrameBuffer),
    (∀ px py, px < 64 → py < 32 →
      FrameBuffer.pixel (draw sprite sx sy fb).1 px py =
        (FrameBuffer.pixel fb px py ^^ spritePixel sprite (sx.toNat % 64) (sy.toNat % 32) px py)) ∧
    ((draw sprite sx sy fb).2 = true ↔ ∃ px py, px < 64 ∧ py < 32 ∧
      FrameBuffer.pixel fb px py = true ∧ spritePixel sprite (sx.toNat % 64) (sy.toNat % 32) px py = true)

/-! ## Timers and keys -/

/-- LD Vx,DT, LD DT,Vx and LD ST,Vx move one byte and change nothing else but PC and the stored sample. -/
def Obligations.TimerLoadsMoveOneByte : Prop :=
  ∀ (x : Reg) (s : State),
    (∃ t, exec (.ldVxDT x) s = .next t ∧ t.reg x = s.DT ∧ wroteRegs s t (s.PC + 2) (fun r => r == x)) ∧
    (exec (.ldDTVx x) s = .next { s with DT := s.reg x, PC := s.PC + 2, prevKeys := s.keys }) ∧
    (exec (.ldSTVx x) s = .next { s with ST := s.reg x, PC := s.PC + 2, prevKeys := s.keys })

/-- SKP and SKNP test bit V[x] of this cycle's sample; an index of 16 or more is what KEY_INDEX_POLICY says: a fault that
commits nothing, not pressed, or the low nibble (decision D9, log 1, log 13). -/
def Obligations.KeySkipsTestTheSample : Prop :=
  ∀ (x : Reg) (s : State),
    ((s.reg x).toNat < 16 ∨ s.cfg.keyIndexPolicy = .lowNibble →
      (∃ t, exec (.skp x) s = .next t ∧ wroteRegs s t
        (if s.keys.getLsbD ((s.reg x).toNat % 16) = true then s.PC + 4 else s.PC + 2) (fun _ => false)) ∧
      (∃ t, exec (.sknp x) s = .next t ∧ wroteRegs s t
        (if s.keys.getLsbD ((s.reg x).toNat % 16) = true then s.PC + 2 else s.PC + 4) (fun _ => false))) ∧
    (16 ≤ (s.reg x).toNat → s.cfg.keyIndexPolicy = .notPressed →
      (∃ t, exec (.skp x) s = .next t ∧ wroteRegs s t (s.PC + 2) (fun _ => false)) ∧
      (∃ t, exec (.sknp x) s = .next t ∧ wroteRegs s t (s.PC + 4) (fun _ => false))) ∧
    (16 ≤ (s.reg x).toNat → s.cfg.keyIndexPolicy = .fault →
      exec (.skp x) s = .next { s with mode := .faulted (.boundsHazard (.keyIndex (s.reg x))) } ∧
      exec (.sknp x) s = .next { s with mode := .faulted (.boundsHazard (.keyIndex (s.reg x))) })

/-- LD Vx,K writes the lowest key that was held at the previous sample and is not held at this one, and goes on; with no
such key it leaves PC and every register as they are and stores the sample, so the same instruction runs next
(44_timers_keys.md R185; stored sample: R186, decision D10, log 15). -/
def Obligations.KeyWaitCompletesOnARelease : Prop :=
  ∀ (x : Reg) (s : State),
    (∀ k, k < 16 → s.prevKeys.getLsbD k = true → s.keys.getLsbD k = false →
      (∀ j, j < k → s.prevKeys.getLsbD j = true → s.keys.getLsbD j = true) →
      ∃ t, exec (.ldVxK x) s = .next t ∧ (t.reg x).toNat = k ∧
        wroteRegs s t (s.PC + 2) (fun r => r == x)) ∧
    ((∀ k, k < 16 → s.prevKeys.getLsbD k = true → s.keys.getLsbD k = true) →
      exec (.ldVxK x) s = .next { s with prevKeys := s.keys })

/-- A tick takes one from each timer that is not 0 and changes nothing else. -/
def Obligations.TickCountsEachTimerDown : Prop :=
  ∀ s : State, ∃ t, serve .timer s = .next t ∧ t.DT.toNat = s.DT.toNat - 1 ∧ t.ST.toNat = s.ST.toNat - 1 ∧
    t = { s with DT := t.DT, ST := t.ST }

/-! ## Faults -/

/-- A fetch that touches an address past memory faults with the lowest such address before anything is decoded, and
commits nothing (60_exceptions.md section 1; decision D5, log 13). -/
def Obligations.FetchPastMemoryFaults : Prop :=
  ∀ s : State, 4095 ≤ s.PC.toNat →
    cycle s = .next { s with mode := .faulted (.boundsHazard (.memoryRange (max s.PC.toNat 4096))) }

/-- A fetched word that matches no row ends the session with a fault that carries the raw word, and the faulting cycle
commits nothing (60_exceptions.md section 1; the masks are decision D2, what is committed decision D14). -/
def Obligations.IllegalWordFaults : Prop :=
  ∀ s : State, s.PC.toNat + 1 < 4096 → decode (s.byteAt s.PC.toNat ++ s.byteAt (s.PC.toNat + 1)) = none →
    cycle s = .next { s with
      mode := .faulted (.unrecognizedOpcode (s.byteAt s.PC.toNat ++ s.byteAt (s.PC.toNat + 1))) }

/-- A cycle of a live session that faults commits nothing: the mode is all that changes, so PC holds the address of the
faulting instruction (60_exceptions.md section 1; decision D14). -/
def Obligations.FaultingCycleCommitsNothing : Prop :=
  ∀ (s t : State) (f : SessionFault), s.mode.ended = false → cycle s = .next t → t.mode = .faulted f →
    t = { s with mode := .faulted f }

/-- Which instruction raises which fault, and when: the rows of the fault table of 60_exceptions.md section 1. -/
def Obligations.EachFaultHasItsListedCause : Prop :=
  ∀ (i : Instr) (s t : State) (f : SessionFault), s.mode.ended = false → exec i s = .next t → t.mode = .faulted f →
    (f = .boundsHazard .stackOverflow ∧ s.SP.val = 32 ∧ ∃ nnn, i = .call nnn) ∨
    (f = .boundsHazard .stackUnderflow ∧ s.SP.val = 0 ∧ i = .ret) ∨
    (f = .boundsHazard (.memoryRange (max s.indexAddr 4096)) ∧
      ∃ x, (∃ y n, i = .drw x y n ∧ n ≠ 0 ∧ 4096 < s.indexAddr + n.toNat) ∨
        (i = .ldB x ∧ 4096 ≤ s.indexAddr + 2) ∨
        ((i = .storeRegs x ∨ i = .loadRegs x) ∧ 4096 ≤ s.indexAddr + x.val)) ∨
    (s.cfg.keyIndexPolicy = .fault ∧ ∃ x, (i = .skp x ∨ i = .sknp x) ∧ 16 ≤ (s.reg x).toNat ∧
      f = .boundsHazard (.keyIndex (s.reg x)))

/-- Every instruction answers a next state in every state: none stops the model, and one that faults enters the fault
(60_exceptions.md section 1; the form of the entry is log 7). -/
def Obligations.EveryInstructionAnswersANextState : Prop :=
  ∀ (i : Instr) (s : State), ∃ t, exec i s = .next t

/-! ## Whole-machine rules over all instructions -/

/-- A general register changes only as the destination of an instruction that names it, as VF under a flag-setting
instruction, or in the range of LD Vx,[I] (10_state.md section 1). -/
def Obligations.OnlyListedInstructionsWriteRegisters : Prop :=
  ∀ (i : Instr) (s t : State) (r : Reg), exec i s = .next t → t.reg r ≠ s.reg r →
    (∃ kk, i = .ldByte r kk ∨ i = .addByte r kk ∨ i = .rnd r kk) ∨
    (∃ y, i = .ldReg r y) ∨ i = .ldVxDT r ∨ i = .ldVxK r ∨
    (∃ x y, (x = r ∨ r = 15) ∧ (i = .orReg x y ∨ i = .andReg x y ∨ i = .xorReg x y ∨ i = .addReg x y ∨
      i = .sub x y ∨ i = .shr x y ∨ i = .subn x y ∨ i = .shl x y)) ∨
    (r = 15 ∧ ∃ x y n, i = .drw x y n) ∨
    (∃ x, r ≤ x ∧ i = .loadRegs x)

/-- Which instructions write I, the stack, the timers, memory and the framebuffer, and that none but DRW and CLS sets
dirty (10_state.md sections 2 and 4 to 7, 20_memory.md section 1, 43_display.md section 3). -/
def Obligations.OnlyListedInstructionsWriteTheRest : Prop :=
  ∀ (i : Instr) (s t : State), exec i s = .next t →
    (t.I ≠ s.I → (∃ nnn, i = .ldI nnn) ∨ ∃ x, i = .addI x ∨ i = .ldF x ∨ i = .storeRegs x ∨ i = .loadRegs x) ∧
    (t.SP ≠ s.SP → i = .ret ∨ ∃ nnn, i = .call nnn) ∧
    (t.stack ≠ s.stack → ∃ nnn, i = .call nnn) ∧
    (t.DT ≠ s.DT → ∃ x, i = .ldDTVx x) ∧
    (t.ST ≠ s.ST → ∃ x, i = .ldSTVx x) ∧
    (t.mem ≠ s.mem → ∃ x, i = .ldB x ∨ i = .storeRegs x) ∧
    (t.fb ≠ s.fb ∨ t.dirty ≠ s.dirty → i = .cls ∨ ∃ x y n, i = .drw x y n)

/-- No instruction writes the key bitmask, the command queue, the parameters, the agenda or the host's snapshot, and none
changes the mode but by faulting (10_state.md sections 8 and 9). -/
def Obligations.NoInstructionTouchesHostState : Prop :=
  ∀ (i : Instr) (s t : State), exec i s = .next t →
    t.keys = s.keys ∧ t.queue = s.queue ∧ t.cfg = s.cfg ∧ t.agenda = s.agenda ∧ t.choiceCount = s.choiceCount ∧
    t.lastSnapshot = s.lastSnapshot ∧ (t.mode = s.mode ∨ ∃ f, t.mode = .faulted f)

/-- How each instruction that completes advances PC (40_control.md section 5). -/
def Obligations.EachInstructionAdvancesPcAsListed : Prop :=
  ∀ (i : Instr) (s t : State), s.mode.ended = false → exec i s = .next t → t.mode.ended = false →
    t.PC = match i with
      | .jp nnn | .call nnn => nnn.setWidth 16
      | .ret => (s.stack[s.SP.val - 1]?).getD 0
      | .jpV0 nnn => nnn.setWidth 16 + (s.reg 0).setWidth 16
      | .seByte x kk => if s.reg x = kk then s.PC + 4 else s.PC + 2
      | .sneByte x kk => if s.reg x = kk then s.PC + 2 else s.PC + 4
      | .seReg x y => if s.reg x = s.reg y then s.PC + 4 else s.PC + 2
      | .sneReg x y => if s.reg x = s.reg y then s.PC + 2 else s.PC + 4
      | .skp x => if keyPressed s.cfg.keyIndexPolicy s.keys (s.reg x) = some true then s.PC + 4 else s.PC + 2
      | .sknp x => if keyPressed s.cfg.keyIndexPolicy s.keys (s.reg x) = some false then s.PC + 4 else s.PC + 2
      | .ldVxK _ => if s.prevKeys &&& ~~~s.keys = 0 then s.PC else s.PC + 2
      | _ => s.PC + 2

/-- A cycle of a live session that does not fault stores its sample in prevKeys, whatever instruction ran; no tick, no
host move and no command but a Step changes prevKeys (44_timers_keys.md section 3; decision D10, log 15). -/
def Obligations.PrevKeysIsTheLastSample : Prop :=
  (∀ s t : State, s.mode.ended = false → cycle s = .next t → t.mode.ended = false → t.prevKeys = s.keys) ∧
  (∀ (e : Event) (s t : State), e ≠ .instruction → e ≠ .command → serve e s = .next t → t.prevKeys = s.prevKeys) ∧
  (∀ (c : Command) (s t : State), c ≠ .step → serveCommand c s = .next t → t.prevKeys = s.prevKeys)

/-- No instruction reads the sound timer: a run of one instruction from two states that differ in ST alone ends in two
states that differ in ST alone, and in none after LD ST,Vx (10_state.md section 5, 44_timers_keys.md section 1). -/
def Obligations.NoInstructionReadsTheSoundTimer : Prop :=
  ∀ (i : Instr) (s t : State) (b : Byte), exec i s = .next t →
    ((∃ x, i = .ldSTVx x) → exec i { s with ST := b } = .next t) ∧
    ((∀ x, i ≠ .ldSTVx x) → exec i { s with ST := b } = .next { t with ST := b })

/-- No instruction but DRW depends on the framebuffer or the dirty flag: it runs alike over any bitmap and leaves a bitmap
it does not clear as it was (60_exceptions.md section 4, 20_memory.md section 1). -/
def Obligations.OnlyDrawReadsTheFramebuffer : Prop :=
  ∀ (i : Instr) (s t : State) (fb : FrameBuffer) (d : Bool), (∀ x y n, i ≠ .drw x y n) → exec i s = .next t →
    (i = .cls → exec i { s with fb := fb, dirty := d } = .next t) ∧
    (i ≠ .cls → exec i { s with fb := fb, dirty := d } = .next { t with fb := fb, dirty := d })

/-! ## The scheduler and the host -/

/-- Where the two bytes at PC decode to an instruction, serving an instruction event in mode Running is that instruction,
and so is serving a Step command in mode Paused, in the state without the command. A step serves the first event of the
agenda, if ready, in the state without it; a live session with an empty agenda serves the free choice, which is ready, in
the state with one more choice counted (60_exceptions.md section 2; agenda and free choice are log 3). -/
def Obligations.StepRunsTheDecodedInstruction : Prop :=
  (∀ (s : State) (i : Instr), s.PC.toNat + 1 < 4096 →
    decode (s.byteAt s.PC.toNat ++ s.byteAt (s.PC.toNat + 1)) = some i →
    (s.mode = .running → serve .instruction s = exec i s) ∧
    (∀ rest, s.mode = .running → s.agenda = .instruction :: rest → step s = exec i { s with agenda := rest }) ∧
    (∀ rest q, s.mode = .paused → s.agenda = .command :: rest → s.queue = .step :: q →
      step s = exec i { s with agenda := rest, queue := q })) ∧
  (∀ (s : State) (e : Event) (rest : List Event), s.agenda = e :: rest → eventReady s e = true →
    step s = serve e { s with agenda := rest }) ∧
  (∀ s : State, s.mode.ended = false → s.agenda = [] →
    eventReady s s.freeChoice = true ∧ step s = serve s.freeChoice { s with choiceCount := s.choiceCount + 1 })

/-- The state made by placing a legal word runs exactly that word in its next step (the model's own loading convention,
log 9). -/
def Obligations.PlacedWordRunsNext : Prop :=
  ∀ (s : State) (w : Word) (i : Instr), memOk s → decode w = some i →
    step (s.withFetchWord 16 w.toNat) = exec i { s.withFetchWord 16 w.toNat with agenda := s.agenda } ∧
    (s.PC.toNat + 1 < 4096 → (s.withFetchWord 16 w.toNat).PC = s.PC ∧
      ∀ a, a ≠ s.PC.toNat → a ≠ s.PC.toNat + 1 → (s.withFetchWord 16 w.toNat).byteAt a = s.byteAt a)

/-- In mode Paused an instruction event changes nothing; a timer event ticks in Running and in Paused alike. -/
def Obligations.PausedSessionTicksButDoesNotRun : Prop :=
  (∀ s : State, s.mode = .paused → serve .instruction s = .next s) ∧
  (∀ s : State, s.mode = .running ∨ s.mode = .paused → serve .timer s = .next s.tick) ∧
  (∀ s : State, s.mode = .running → serve .instruction s = cycle s)

/-- Serving a command takes the oldest of the queue and, but for Close, leaves the rest in order: Pause toggles Running and
Paused, Step runs one cycle while Paused, which leaves the mode Paused or, where the cycle faults, Faulted with nothing
committed, and does nothing while Running, SetKeyMap writes keys and not prevKeys, Close makes the mode Closed and discards
the rest of the queue (60_exceptions.md R215 to R218; that a faulting Step commits nothing is decision D14, log 19; that
Close discards the commands behind it is decision D25, log 8). -/
def Obligations.CommandsAreServedOldestFirst : Prop :=
  ∀ (s : State) (q : List Command),
    (s.queue = .pause :: q → s.mode = .running →
      serve .command s = .next { s with queue := q, mode := .paused }) ∧
    (s.queue = .pause :: q → s.mode = .paused →
      serve .command s = .next { s with queue := q, mode := .running }) ∧
    (s.queue = .step :: q → s.mode = .paused →
      serve .command s = cycle { s with queue := q } ∧
      ∃ t, serve .command s = .next t ∧
        (t.mode = .paused ∨ ∃ f, t = { s with queue := q, mode := .faulted f })) ∧
    (s.queue = .step :: q → s.mode = .running → serve .command s = .next { s with queue := q }) ∧
    (∀ m, s.queue = .setKeyMap m :: q → serve .command s = .next { s with queue := q, keys := m }) ∧
    (s.queue = .close :: q → serve .command s = .next { s with queue := [], mode := .closed })

/-- The host's moves on a live session: an enqueue appends to the queue and a direct write sets keys; a full queue of a
finite bound makes the enqueue not enabled (60_exceptions.md sections 2 and 3; decisions D16, D25). -/
def Obligations.HostMovesActAsListed : Prop :=
  (∀ (s : State) (c : Command), serve (.enqueue c) s = .next { s with queue := s.queue ++ [c] }) ∧
  (∀ (s : State) (m : Word), serve (.writeKeys m) s = .next { s with keys := m }) ∧
  (∀ (s : State) (c : Command), s.mode.ended = false →
    (eventReady s (.enqueue c) = false ↔ ∃ n, s.cfg.queueBound = some n ∧ n ≤ s.queue.length))

/-- A snapshot gives the host the bitmap and the old dirty flag, clears the flag and changes nothing else; a snapshot of any
later state in which the flag has not been set again reports false, and again leaves the bitmap as it is (43_display.md
R170; the field that keeps the answer is log 5; that this also holds after the end of a session is log 6). -/
def Obligations.SnapshotConsumesTheDirtyFlag : Prop :=
  ∀ s : State, ∃ t, serve .snapshot s = .next t ∧
    t = { s with dirty := false, lastSnapshot := some ⟨s.fb, s.dirty⟩ } ∧
    ∀ v : State, v.dirty = t.dirty →
      serve .snapshot v = .next { v with lastSnapshot := some ⟨v.fb, false⟩ }

/-- Every step that answers a next state serves exactly one event that was ready, in a state that differs from the old one
in the agenda and the count of free choices alone (60_exceptions.md section 2; log 3). -/
def Obligations.EveryStepServesOneReadyEvent : Prop :=
  ∀ s t : State, step s = .next t →
    ∃ e u, eventReady s e = true ∧ serve e u = .next t ∧
      u = { s with agenda := u.agenda, choiceCount := u.choiceCount }

/-- A live session never stops: its step always answers a next state (60_exceptions.md section 2, "run forever until
Close"). -/
def Obligations.LiveSessionAlwaysSteps : Prop :=
  ∀ s : State, s.mode.ended = false → ∃ t, step s = .next t

/-- After Close or a fault no cycle, no tick and no command occurs: a step answers the named stop, or serves a snapshot
and changes nothing the machine computes with (60_exceptions.md section 2 and 3; decision D25, log 6). -/
def Obligations.EndedSessionStaysEnded : Prop :=
  ∀ s : State, s.mode.ended = true →
    (Event.snapshot ∉ s.agenda → step s = .fault (endOf s.mode)) ∧
    (∀ t, step s = .next t →
      t = { s with agenda := t.agenda, dirty := false, lastSnapshot := some ⟨s.fb, s.dirty⟩ })

/-- The key bitmask changes in a step only by the host: a direct write or a served SetKeyMap, each of the new value
(10_state.md section 8). -/
def Obligations.KeysChangeOnlyByTheHost : Prop :=
  ∀ s t : State, step s = .next t → t.keys ≠ s.keys →
    ∃ e u, chooseEvent s = some (e, u) ∧
      (e = .writeKeys t.keys ∨ (e = .command ∧ s.queue.head? = some (.setKeyMap t.keys)))

/-- At a parked word an instruction event changes nothing but prevKeys (70_reset_and_hazards.md section 4, the spec's
definition D19). -/
def Obligations.ParkedCycleChangesOnlyPrevKeys : Prop :=
  ∀ (s : State) (rest : List Event), parked s = true → s.mode = .running → s.agenda = .instruction :: rest →
    step s = .next { s with agenda := rest, prevKeys := s.keys } ∧
    parked { s with agenda := rest, prevKeys := s.keys } = true

/-! ## Invariants -/

/-- Every step keeps memory in its canonical form. -/
def Obligations.EveryStepKeepsMemoryCanonical : Prop :=
  ∀ s t : State, memOk s → step s = .next t → memOk t

/-- Every step keeps PC at or below 0x10FE and every return address at or below 0x1000, so that no PC sum ever overflows
16 bits (10_state.md section 3, the spec's derived bound on reachable PC values). -/
def Obligations.EveryStepKeepsPcBounded : Prop :=
  ∀ s t : State, pcBounded s → step s = .next t → pcBounded t

/-- Every step keeps the queue within its bound, so no command is ever dropped or exceeds it (60_exceptions.md section 2;
decision D25). -/
def Obligations.EveryStepKeepsTheQueueBounded : Prop :=
  ∀ s t : State, queueBounded s = true → step s = .next t → queueBounded t = true

/-- No step changes an implementation parameter (the parameters are the model's own field, log 1). -/
def Obligations.NoStepChangesAParameter : Prop :=
  ∀ s t : State, step s = .next t → t.cfg = s.cfg
end

