-- ==== Sys2Proof/Laws/Decode.lean ====
section
/-! SUPPORT. Words as four nibbles: fields of a packed word, when a row of the opcode map matches one, and bytes of a word. -/

namespace Sys2Proof

/-- The bits of a word of four nibbles. -/
theorem getLsbD_packNibbles (a b c d : Nibble) (i : Nat) :
    (packNibbles a b c d).getLsbD i =
      if i < 4 then d.getLsbD i
      else if i < 8 then c.getLsbD (i - 4)
      else if i < 12 then b.getLsbD (i - 8) else a.getLsbD (i - 12) := by
  change BitVec.getLsbD (w := 4 + 4 + 4 + 4) (a ++ b ++ c ++ d) i = _
  simp only [BitVec.getLsbD_append, Nat.sub_sub]
  repeat' split
  all_goals first | rfl | omega

/-- Bits 15..12 of a packed word. -/
theorem op_packNibbles (a b c d : Nibble) : (packNibbles a b c d).extractLsb' 12 4 = a := by
  apply BitVec.eq_of_getLsbD_eq
  intro i hi
  have h1 : ¬ 12 + i < 4 := by omega
  have h2 : ¬ 12 + i < 8 := by omega
  have h3 : ¬ 12 + i < 12 := by omega
  have h4 : 12 + i - 12 = i := by omega
  simp only [BitVec.getLsbD_extractLsb', hi, getLsbD_packNibbles, h1, h2, h3, h4, decide_true, Bool.true_and, if_false]

/-- Bits 11..8 of a packed word. -/
theorem x_packNibbles (a b c d : Nibble) : (packNibbles a b c d).extractLsb' 8 4 = b := by
  apply BitVec.eq_of_getLsbD_eq
  intro i hi
  have h1 : ¬ 8 + i < 4 := by omega
  have h2 : ¬ 8 + i < 8 := by omega
  have h3 : 8 + i < 12 := by omega
  have h4 : 8 + i - 8 = i := by omega
  simp only [BitVec.getLsbD_extractLsb', hi, getLsbD_packNibbles, h1, h2, h3, h4, decide_true, Bool.true_and, if_false,
    if_true]

/-- Bits 7..4 of a packed word. -/
theorem y_packNibbles (a b c d : Nibble) : (packNibbles a b c d).extractLsb' 4 4 = c := by
  apply BitVec.eq_of_getLsbD_eq
  intro i hi
  have h1 : ¬ 4 + i < 4 := by omega
  have h2 : 4 + i < 8 := by omega
  have h4 : 4 + i - 4 = i := by omega
  simp only [BitVec.getLsbD_extractLsb', hi, getLsbD_packNibbles, h1, h2, h4, decide_true, Bool.true_and, if_false,
    if_true]

/-- Bits 3..0 of a packed word. -/
theorem n_packNibbles (a b c d : Nibble) : (packNibbles a b c d).extractLsb' 0 4 = d := by
  apply BitVec.eq_of_getLsbD_eq
  intro i hi
  simp only [BitVec.getLsbD_extractLsb', hi, getLsbD_packNibbles, Nat.zero_add, decide_true, Bool.true_and, if_true]

/-- Every word is the packing of its four nibbles. -/
theorem packNibbles_fields (w : Word) :
    packNibbles (w.extractLsb' 12 4) (w.extractLsb' 8 4) (w.extractLsb' 4 4) (w.extractLsb' 0 4) = w := by
  apply BitVec.eq_of_getLsbD_eq
  intro i hi
  rw [getLsbD_packNibbles]
  simp only [BitVec.getLsbD_extractLsb']
  by_cases h1 : i < 4
  · simp [h1]
  · by_cases h2 : i < 8
    · have h3 : i - 4 < 4 := by omega
      have h4 : 4 + (i - 4) = i := by omega
      simp [h1, h2, h3, h4]
    · by_cases h3 : i < 12
      · have h4 : i - 8 < 4 := by omega
        have h5 : 8 + (i - 8) = i := by omega
        simp [h1, h2, h3, h4, h5]
      · have h4 : i - 12 < 4 := by omega
        have h5 : 12 + (i - 12) = i := by omega
        simp [h1, h2, h3, h4, h5]

theorem packNibbles_and (a b c d a' b' c' d' : Nibble) :
    packNibbles a b c d &&& packNibbles a' b' c' d' = packNibbles (a &&& a') (b &&& b') (c &&& c') (d &&& d') := by
  change HAnd.hAnd (α := BitVec (4 + 4 + 4 + 4)) (a ++ b ++ c ++ d) (a' ++ b' ++ c' ++ d') = _
  rw [BitVec.and_append, BitVec.and_append, BitVec.and_append]
  rfl

theorem packNibbles_inj {a b c d a' b' c' d' : Nibble} :
    packNibbles a b c d = packNibbles a' b' c' d' ↔ a = a' ∧ b = b' ∧ c = c' ∧ d = d' := by
  refine ⟨fun h => ⟨?_, ?_, ?_, ?_⟩, fun ⟨h1, h2, h3, h4⟩ => by rw [h1, h2, h3, h4]⟩
  · rw [← op_packNibbles a b c d, h, op_packNibbles]
  · rw [← x_packNibbles a b c d, h, x_packNibbles]
  · rw [← y_packNibbles a b c d, h, y_packNibbles]
  · rw [← n_packNibbles a b c d, h, n_packNibbles]

/-- A row matches a packed word nibble by nibble. -/
theorem holds_packNibbles (v m : Word) (f : Word → Instr) (a b c d : Nibble) :
    OpcodeRow.holds ⟨v, m, f⟩ (packNibbles a b c d) =
      (a &&& m.extractLsb' 12 4 == v.extractLsb' 12 4 && b &&& m.extractLsb' 8 4 == v.extractLsb' 8 4 &&
        c &&& m.extractLsb' 4 4 == v.extractLsb' 4 4 && d &&& m.extractLsb' 0 4 == v.extractLsb' 0 4) := by
  rw [Bool.eq_iff_iff]
  conv_lhs => rw [OpcodeRow.holds, ← packNibbles_fields m, packNibbles_and]
  conv_lhs => rw [← packNibbles_fields v]
  simp [packNibbles_inj, and_assoc]

/-! ## Fields of packed words -/

@[simp] theorem fieldX_packNibbles (a b c d : Nibble) : fieldX (packNibbles a b c d) = b.toFin := by
  simp only [fieldX, x_packNibbles]

@[simp] theorem fieldY_packNibbles (a b c d : Nibble) : fieldY (packNibbles a b c d) = c.toFin := by
  simp only [fieldY, y_packNibbles]

@[simp] theorem fieldN_packNibbles (a b c d : Nibble) : fieldN (packNibbles a b c d) = d := by
  simp only [fieldN, n_packNibbles]

/-- A word of the form `op x kk` as four nibbles. -/
theorem packByte_eq (op x : Nibble) (kk : Byte) :
    packByte op x kk = packNibbles op x (kk.extractLsb' 4 4) (kk.extractLsb' 0 4) := by
  apply BitVec.eq_of_getLsbD_eq
  intro i hi
  rw [getLsbD_packNibbles]
  change BitVec.getLsbD (w := 4 + 4 + 8) (op ++ x ++ kk) i = _
  simp only [BitVec.getLsbD_append, BitVec.getLsbD_extractLsb', Nat.sub_sub]
  by_cases h1 : i < 4
  · have : i < 8 := by omega
    simp [h1, this]
  · by_cases h2 : i < 8
    · have h3 : i - 4 < 4 := by omega
      have h4 : 4 + (i - 4) = i := by omega
      simp [h1, h2, h3, h4]
    · by_cases h3 : i < 12
      · have h4 : i - 8 < 4 := by omega
        simp [h1, h2, h3, h4]
      · have h4 : ¬ i - 8 < 4 := by omega
        simp [h1, h2, h3, h4]

/-- A word of the form `op nnn` as four nibbles. -/
theorem packAddr_eq (op : Nibble) (nnn : Addr) :
    packAddr op nnn =
      packNibbles op (nnn.extractLsb' 8 4) (nnn.extractLsb' 4 4) (nnn.extractLsb' 0 4) := by
  apply BitVec.eq_of_getLsbD_eq
  intro i hi
  rw [getLsbD_packNibbles]
  change BitVec.getLsbD (w := 4 + 12) (op ++ nnn) i = _
  simp only [BitVec.getLsbD_append, BitVec.getLsbD_extractLsb']
  by_cases h1 : i < 4
  · have : i < 12 := by omega
    simp [h1, this]
  · by_cases h2 : i < 8
    · have h3 : i - 4 < 4 := by omega
      have h4 : 4 + (i - 4) = i := by omega
      have h5 : i < 12 := by omega
      simp [h1, h2, h3, h4, h5]
    · by_cases h3 : i < 12
      · have h4 : i - 8 < 4 := by omega
        have h5 : 8 + (i - 8) = i := by omega
        simp [h1, h2, h3, h4, h5]
      · simp [h1, h2, h3]

@[simp] theorem fieldKk_packByte (op x : Nibble) (kk : Byte) : fieldKk (packByte op x kk) = kk := by
  apply BitVec.eq_of_getLsbD_eq
  intro i hi
  simp only [fieldKk, BitVec.getLsbD_extractLsb', hi, decide_true, Bool.true_and, Nat.zero_add]
  change BitVec.getLsbD (w := 4 + 4 + 8) (op ++ x ++ kk) i = _
  simp only [BitVec.getLsbD_append, hi, if_true]

@[simp] theorem fieldNnn_packAddr (op : Nibble) (nnn : Addr) : fieldNnn (packAddr op nnn) = nnn := by
  apply BitVec.eq_of_getLsbD_eq
  intro i hi
  simp only [fieldNnn, BitVec.getLsbD_extractLsb', hi, decide_true, Bool.true_and, Nat.zero_add]
  change BitVec.getLsbD (w := 4 + 12) (op ++ nnn) i = _
  simp only [BitVec.getLsbD_append, hi, if_true]

@[simp] theorem fieldX_packByte (op x : Nibble) (kk : Byte) : fieldX (packByte op x kk) = x.toFin := by
  rw [packByte_eq, fieldX_packNibbles]

@[simp] theorem toFin_regBits (r : Reg) : (regBits r).toFin = r := rfl

@[simp] theorem regBits_toFin (b : Nibble) : regBits b.toFin = b := rfl

/-! ## Words of the opcode map -/

/-- A row's match on a word of the form `op x kk`. -/
theorem holds_packByte (v m : Word) (f : Word → Instr) (op x : Nibble) (kk : Byte) :
    OpcodeRow.holds ⟨v, m, f⟩ (packByte op x kk) =
      (op &&& m.extractLsb' 12 4 == v.extractLsb' 12 4 && x &&& m.extractLsb' 8 4 == v.extractLsb' 8 4 &&
        kk.extractLsb' 4 4 &&& m.extractLsb' 4 4 == v.extractLsb' 4 4 &&
        kk.extractLsb' 0 4 &&& m.extractLsb' 0 4 == v.extractLsb' 0 4) := by
  rw [packByte_eq, holds_packNibbles]

/-- A row's match on a word of the form `op nnn`. -/
theorem holds_packAddr (v m : Word) (f : Word → Instr) (op : Nibble) (nnn : Addr) :
    OpcodeRow.holds ⟨v, m, f⟩ (packAddr op nnn) =
      (op &&& m.extractLsb' 12 4 == v.extractLsb' 12 4 &&
        nnn.extractLsb' 8 4 &&& m.extractLsb' 8 4 == v.extractLsb' 8 4 &&
        nnn.extractLsb' 4 4 &&& m.extractLsb' 4 4 == v.extractLsb' 4 4 &&
        nnn.extractLsb' 0 4 &&& m.extractLsb' 0 4 == v.extractLsb' 0 4) := by
  rw [packAddr_eq, holds_packNibbles]

/-- A row whose mask is all ones matches its own value only. -/
theorem OpcodeRow.eq_of_full_mask {v w : Word} {f : Word → Instr} (h : OpcodeRow.holds ⟨v, 0xFFFF, f⟩ w = true) :
    w = v := by
  have hm : w &&& 0xFFFF#16 = w := BitVec.and_allOnes
  simpa [OpcodeRow.holds, hm] using h

/-- The first matching row, spelled out over the whole map. -/
theorem decode_eq_find (w : Word) :
    decode w = ((opcodeRows1 ++ (opcodeRows2 ++ opcodeRows3)).find? (fun r => r.holds w)).map (fun r => r.build w) := by
  simp [decode, opcodeTable]

/-- The two bytes of a word make that word again. -/
@[simp] theorem wordOfBytes_high_low (w : Word) : wordOfBytes (highByte w) (lowByte w) = w := by
  apply BitVec.eq_of_getLsbD_eq
  intro i hi
  change BitVec.getLsbD (w := 8 + 8) (highByte w ++ lowByte w) i = _
  simp only [BitVec.getLsbD_append, highByte, lowByte, BitVec.getLsbD_extractLsb']
  by_cases h : i < 8
  · simp [h]
  · have h1 : i - 8 < 8 := by omega
    have h2 : 8 + (i - 8) = i := by omega
    simp [h, h1, h2]

end Sys2Proof
end

