-- ==== Sys2Proof/Laws/FrameBuffer.lean ====
section
/-! SUPPORT. What the pieces of the draw engine do to one framebuffer byte and to the collision result. -/

namespace Sys2Proof.Machine

@[simp] theorem FrameBuffer.byte_blank (j : Nat) : FrameBuffer.byte FrameBuffer.blank j = 0 := by
  by_cases h : j < 256 <;> simp [FrameBuffer.byte, FrameBuffer.blank, h]

/-- One half XORs its bits into its byte and leaves every other byte. -/
theorem FrameBuffer.byte_drawHalf (j k : Nat) (bits : Byte) (r : FrameBuffer × Bool) (hj : j < 256) :
    FrameBuffer.byte (drawHalf j bits r).1 k =
      if k = j then FrameBuffer.byte r.1 j ^^^ bits else FrameBuffer.byte r.1 k := by
  unfold drawHalf FrameBuffer.byte
  simp only [Vector.getElem?_setIfInBounds]
  by_cases h : j = k
  · subst h
    simp [hj]
  · simp [h, Ne.symm h]

/-- One half collides iff a set bit of the buffer byte lies under a set bit of the half. -/
theorem drawHalf_collision (j : Nat) (bits : Byte) (r : FrameBuffer × Bool) :
    (drawHalf j bits r).2 = (r.2 || (FrameBuffer.byte r.1 j &&& bits != 0)) := rfl

/-- The byte index of a row's left half is inside the framebuffer. -/
theorem leftIndex_lt {x0 : Nat} (py : Nat) (hx : x0 < 64) : leftIndex x0 py < 256 := by
  unfold leftIndex displayH
  omega

/-- A row that is not clipped at the right edge has its right byte in the same display row. -/
theorem leftIndex_succ_lt {x0 : Nat} (py : Nat) (hx : x0 < 64) (h : (leftIndex x0 py + 1) % 8 ≠ 0) :
    leftIndex x0 py + 1 < 256 ∧ x0 / 8 < 7 := by
  unfold leftIndex displayH at *
  omega

/-- One row as one half or two (43_display.md R163). -/
theorem drawRow_cases (x0 py : Nat) (b : Byte) (r : FrameBuffer × Bool) :
    ((x0 % 8 ≠ 0 ∧ (leftIndex x0 py + 1) % 8 ≠ 0) ∧
      drawRow x0 py b r =
        drawHalf (leftIndex x0 py + 1) (trunc8 (b.toNat <<< (8 - x0 % 8)))
          (drawHalf (leftIndex x0 py) (b >>> (x0 % 8)) r)) ∨
    (¬ (x0 % 8 ≠ 0 ∧ (leftIndex x0 py + 1) % 8 ≠ 0) ∧
      drawRow x0 py b r = drawHalf (leftIndex x0 py) (b >>> (x0 % 8)) r) := by
  by_cases h : x0 % 8 ≠ 0 ∧ (leftIndex x0 py + 1) % 8 ≠ 0
  · exact Or.inl ⟨h, by simp [drawRow, h]⟩
  · exact Or.inr ⟨h, by simp only [drawRow, h, if_false]⟩

/-- A row draws nothing outside its own display row. -/
theorem FrameBuffer.byte_drawRow_other (x0 py : Nat) (b : Byte) (r : FrameBuffer × Bool) (k : Nat) (hx : x0 < 64)
    (hk : k / 8 ≠ py % 32) : FrameBuffer.byte (drawRow x0 py b r).1 k = FrameBuffer.byte r.1 k := by
  have h0 : k ≠ leftIndex x0 py := by
    unfold leftIndex displayH; omega
  rcases drawRow_cases x0 py b r with ⟨h, e⟩ | ⟨_, e⟩
  · have h1 := leftIndex_succ_lt py hx h.2
    have h2 : k ≠ leftIndex x0 py + 1 := by
      unfold leftIndex displayH at *; omega
    rw [e, FrameBuffer.byte_drawHalf _ _ _ _ h1.1, if_neg h2,
      FrameBuffer.byte_drawHalf _ _ _ _ (leftIndex_lt py hx), if_neg h0]
  · rw [e, FrameBuffer.byte_drawHalf _ _ _ _ (leftIndex_lt py hx), if_neg h0]

end Sys2Proof.Machine
end

