-- ==== Sys2Proof/Laws/Memory.lean ====
section
/-! SUPPORT. The laws of memory: every write keeps the canonical form, a read after a write gives the byte written at that
address and the old byte everywhere else, and when an access is out of range. -/

namespace Sys2Proof.Machine

variable {font : Vector Byte 80}

theorem Memory.wf_nil : Memory.wf font [] := ⟨List.Pairwise.nil, by simp⟩

theorem Memory.wf_tail {c : Host.Cell} {m : Memory} (h : Memory.wf font (c :: m)) : Memory.wf font m :=
  ⟨(List.pairwise_cons.1 h.1).2, fun d hd => h.2 d (List.mem_cons_of_mem c hd)⟩

theorem Memory.wf_head_lt {c d : Host.Cell} {m : Memory} (h : Memory.wf font (c :: m)) (hd : d ∈ m) : c.1 < d.1 :=
  (List.pairwise_cons.1 h.1).1 d hd

/-- Cells all above `a` stay canonical with the byte at `a` in front. -/
theorem Memory.consCell_wf {a : Nat} {b : Byte} {m : Memory} (h : Memory.wf font m) (ha : a < memSize)
    (hlt : ∀ d ∈ m, a < d.1) : Memory.wf font (Memory.consCell font a b m) := by
  unfold Memory.consCell
  split
  · exact h
  · refine ⟨List.pairwise_cons.2 ⟨hlt, h.1⟩, ?_⟩
    intro d hd
    rcases List.mem_cons.1 hd with rfl | hd
    · exact ⟨ha, by assumption⟩
    · exact h.2 d hd

/-- An address below every cell reads as its reset contents. -/
theorem Memory.read_of_lt {a : Nat} {m : Memory} (hlt : ∀ d ∈ m, a < d.1) :
    Memory.read font m a = initialByte font a := by
  induction m with
  | nil => rfl
  | cons c m ih =>
    have hc : a < c.1 := hlt c List.mem_cons_self
    have hne : ¬ c.1 = a := by omega
    simp only [Memory.read, hne, if_false]
    exact ih (fun d hd => hlt d (List.mem_cons_of_mem c hd))

theorem Memory.read_consCell {a : Nat} {b : Byte} {m : Memory} (hlt : ∀ d ∈ m, a < d.1) (a' : Nat) :
    Memory.read font (Memory.consCell font a b m) a' = if a' = a then b else Memory.read font m a' := by
  unfold Memory.consCell
  by_cases hb : b = initialByte font a
  · rw [if_pos hb]
    split
    · subst a'
      rw [Memory.read_of_lt hlt, hb]
    · rfl
  · rw [if_neg hb]
    simp only [Memory.read]
    by_cases h : a = a'
    · simp [h]
    · simp [h, Ne.symm h]

/-- Every address of the memory after a write is the written one or one listed before. -/
theorem Memory.mem_write {a : Nat} {b : Byte} {m : Memory} {d : Host.Cell}
    (hd : d ∈ Memory.write font m a b) : d = (a, b) ∨ d ∈ m := by
  induction m with
  | nil =>
    simp only [Memory.write, Memory.consCell] at hd
    split at hd
    · exact Or.inr hd
    · simpa using hd
  | cons c m ih =>
    simp only [Memory.write, Memory.consCell] at hd
    split at hd
    · split at hd
      · exact Or.inr hd
      · exact List.mem_cons.1 hd
    · split at hd
      · split at hd
        · exact Or.inr (List.mem_cons_of_mem c hd)
        · rcases List.mem_cons.1 hd with h | h
          · exact Or.inl h
          · exact Or.inr (List.mem_cons_of_mem c h)
      · rcases List.mem_cons.1 hd with h | h
        · exact Or.inr (h ▸ List.mem_cons_self)
        · exact (ih h).imp id (List.mem_cons_of_mem c)

/-- A write inside memory keeps the canonical form. -/
theorem Memory.write_wf {a : Nat} {b : Byte} {m : Memory} (h : Memory.wf font m) (ha : a < memSize) :
    Memory.wf font (Memory.write font m a b) := by
  induction m with
  | nil => exact Memory.consCell_wf h ha (by simp)
  | cons c m ih =>
    simp only [Memory.write]
    split
    · rename_i hac
      refine Memory.consCell_wf h ha ?_
      intro d hd
      rcases List.mem_cons.1 hd with rfl | hd
      · exact hac
      · exact lt_trans hac (Memory.wf_head_lt h hd)
    · split
      · rename_i hac
        refine Memory.consCell_wf (Memory.wf_tail h) ha ?_
        intro d hd
        exact hac ▸ Memory.wf_head_lt h hd
      · rename_i h1 h2
        have hw := ih (Memory.wf_tail h)
        refine ⟨List.pairwise_cons.2 ⟨?_, hw.1⟩, ?_⟩
        · intro d hd
          rcases Memory.mem_write hd with rfl | hd
          · exact lt_of_le_of_ne (not_lt.1 h1) (Ne.symm h2)
          · exact Memory.wf_head_lt h hd
        · intro d hd
          rcases List.mem_cons.1 hd with rfl | hd
          · exact h.2 _ List.mem_cons_self
          · exact hw.2 d hd

/-- Read after write: the byte written at its address, the old byte at every other. -/
theorem Memory.read_write {a : Nat} {b : Byte} {m : Memory} (h : Memory.wf font m) (a' : Nat) :
    Memory.read font (Memory.write font m a b) a' = if a' = a then b else Memory.read font m a' := by
  induction m with
  | nil => exact Memory.read_consCell (by simp) a'
  | cons c m ih =>
    simp only [Memory.write]
    split
    · rename_i hac
      refine Memory.read_consCell ?_ a'
      intro d hd
      rcases List.mem_cons.1 hd with rfl | hd
      · exact hac
      · exact lt_trans hac (Memory.wf_head_lt h hd)
    · split
      · rename_i hac
        rw [Memory.read_consCell (fun d hd => hac ▸ Memory.wf_head_lt h hd)]
        by_cases h' : a' = a
        · simp [h']
        · have : ¬ c.1 = a' := by omega
          simp [h', Memory.read, this]
      · simp only [Memory.read, ih (Memory.wf_tail h)]
        by_cases h' : a' = a
        · subst h'
          rename_i h1 h2
          have : ¬ c.1 = a' := by omega
          simp [this]
        · simp [h']

/-- A sequence of writes inside memory keeps the canonical form. -/
theorem Memory.writeSeq_wf {bs : List Byte} {m : Memory} {a : Nat} (h : Memory.wf font m)
    (ha : a + bs.length ≤ memSize) : Memory.wf font (Memory.writeSeq font m a bs) := by
  induction bs generalizing m a with
  | nil => exact h
  | cons b bs ih =>
    simp only [List.length_cons] at ha
    exact ih (Memory.write_wf h (by omega)) (by omega)

/-- Read after a sequence of writes inside memory. -/
theorem Memory.read_writeSeq {bs : List Byte} {m : Memory} {a : Nat} (h : Memory.wf font m)
    (ha : a + bs.length ≤ memSize) (a' : Nat) :
    Memory.read font (Memory.writeSeq font m a bs) a' =
      if a ≤ a' then (bs[a' - a]?).getD (Memory.read font m a') else Memory.read font m a' := by
  induction bs generalizing m a with
  | nil => simp [Memory.writeSeq]
  | cons b bs ih =>
    simp only [List.length_cons] at ha
    rw [Memory.writeSeq, ih (Memory.write_wf h (by omega)) (by omega), Memory.read_write h]
    by_cases h1 : a' = a
    · subst h1
      simp
    · by_cases h2 : a + 1 ≤ a'
      · have h3 : a ≤ a' := by omega
        have h4 : a' - a = (a' - (a + 1)) + 1 := by omega
        simp [h1, h2, h3, h4]
      · have h3 : ¬ a ≤ a' := by omega
        simp [h1, h2, h3]

/-- An access is in range iff it touches no byte or ends by the end of memory. -/
theorem outOfRange_eq_none {base len : Nat} : outOfRange base len = none ↔ len = 0 ∨ base + len ≤ memSize := by
  unfold outOfRange
  split <;> simp_all

/-- The address reported is the lowest one at or above the end of memory that the access touches. -/
theorem outOfRange_eq_some {base len a : Nat} :
    outOfRange base len = some a ↔ memSize < base + len ∧ len ≠ 0 ∧ a = max base memSize := by
  unfold outOfRange
  split
  · simp only [reduceCtorEq, false_iff]
    omega
  · simp only [Option.some.injEq]
    omega

end Sys2Proof.Machine
end

