-- ==== Sys2Proof/Laws/State.lean ====
section
/-! SUPPORT. What each update of the state leaves in each field: one lemma per field per update, true by unfolding the
update once. -/

namespace Sys2Proof.Machine.State

variable (s : State)

/-! ## setReg -/

@[simp] theorem setReg_V (x : Reg) (b : Byte) : (s.setReg x b).V = s.V.set x b := rfl
@[simp] theorem setReg_I (x : Reg) (b : Byte) : (s.setReg x b).I = s.I := rfl
@[simp] theorem setReg_PC (x : Reg) (b : Byte) : (s.setReg x b).PC = s.PC := rfl
@[simp] theorem setReg_SP (x : Reg) (b : Byte) : (s.setReg x b).SP = s.SP := rfl
@[simp] theorem setReg_stack (x : Reg) (b : Byte) : (s.setReg x b).stack = s.stack := rfl
@[simp] theorem setReg_DT (x : Reg) (b : Byte) : (s.setReg x b).DT = s.DT := rfl
@[simp] theorem setReg_ST (x : Reg) (b : Byte) : (s.setReg x b).ST = s.ST := rfl
@[simp] theorem setReg_mem (x : Reg) (b : Byte) : (s.setReg x b).mem = s.mem := rfl
@[simp] theorem setReg_fb (x : Reg) (b : Byte) : (s.setReg x b).fb = s.fb := rfl
@[simp] theorem setReg_dirty (x : Reg) (b : Byte) : (s.setReg x b).dirty = s.dirty := rfl
@[simp] theorem setReg_keys (x : Reg) (b : Byte) : (s.setReg x b).keys = s.keys := rfl
@[simp] theorem setReg_prevKeys (x : Reg) (b : Byte) : (s.setReg x b).prevKeys = s.prevKeys := rfl
@[simp] theorem setReg_mode (x : Reg) (b : Byte) : (s.setReg x b).mode = s.mode := rfl
@[simp] theorem setReg_queue (x : Reg) (b : Byte) : (s.setReg x b).queue = s.queue := rfl
@[simp] theorem setReg_cfg (x : Reg) (b : Byte) : (s.setReg x b).cfg = s.cfg := rfl
@[simp] theorem setReg_agenda (x : Reg) (b : Byte) : (s.setReg x b).agenda = s.agenda := rfl
@[simp] theorem setReg_choiceCount (x : Reg) (b : Byte) : (s.setReg x b).choiceCount = s.choiceCount := rfl
@[simp] theorem setReg_drawCount (x : Reg) (b : Byte) : (s.setReg x b).drawCount = s.drawCount := rfl
@[simp] theorem setReg_lastSnapshot (x : Reg) (b : Byte) : (s.setReg x b).lastSnapshot = s.lastSnapshot := rfl

/-! ## setIndex -/

@[simp] theorem setIndex_V (w : Word) : (s.setIndex w).V = s.V := rfl
@[simp] theorem setIndex_I (w : Word) : (s.setIndex w).I = w := rfl
@[simp] theorem setIndex_PC (w : Word) : (s.setIndex w).PC = s.PC := rfl
@[simp] theorem setIndex_SP (w : Word) : (s.setIndex w).SP = s.SP := rfl
@[simp] theorem setIndex_stack (w : Word) : (s.setIndex w).stack = s.stack := rfl
@[simp] theorem setIndex_DT (w : Word) : (s.setIndex w).DT = s.DT := rfl
@[simp] theorem setIndex_ST (w : Word) : (s.setIndex w).ST = s.ST := rfl
@[simp] theorem setIndex_mem (w : Word) : (s.setIndex w).mem = s.mem := rfl
@[simp] theorem setIndex_fb (w : Word) : (s.setIndex w).fb = s.fb := rfl
@[simp] theorem setIndex_dirty (w : Word) : (s.setIndex w).dirty = s.dirty := rfl
@[simp] theorem setIndex_keys (w : Word) : (s.setIndex w).keys = s.keys := rfl
@[simp] theorem setIndex_prevKeys (w : Word) : (s.setIndex w).prevKeys = s.prevKeys := rfl
@[simp] theorem setIndex_mode (w : Word) : (s.setIndex w).mode = s.mode := rfl
@[simp] theorem setIndex_queue (w : Word) : (s.setIndex w).queue = s.queue := rfl
@[simp] theorem setIndex_cfg (w : Word) : (s.setIndex w).cfg = s.cfg := rfl
@[simp] theorem setIndex_agenda (w : Word) : (s.setIndex w).agenda = s.agenda := rfl
@[simp] theorem setIndex_choiceCount (w : Word) : (s.setIndex w).choiceCount = s.choiceCount := rfl
@[simp] theorem setIndex_drawCount (w : Word) : (s.setIndex w).drawCount = s.drawCount := rfl
@[simp] theorem setIndex_lastSnapshot (w : Word) : (s.setIndex w).lastSnapshot = s.lastSnapshot := rfl

/-! ## setDelay -/

@[simp] theorem setDelay_V (b : Byte) : (s.setDelay b).V = s.V := rfl
@[simp] theorem setDelay_I (b : Byte) : (s.setDelay b).I = s.I := rfl
@[simp] theorem setDelay_PC (b : Byte) : (s.setDelay b).PC = s.PC := rfl
@[simp] theorem setDelay_SP (b : Byte) : (s.setDelay b).SP = s.SP := rfl
@[simp] theorem setDelay_stack (b : Byte) : (s.setDelay b).stack = s.stack := rfl
@[simp] theorem setDelay_DT (b : Byte) : (s.setDelay b).DT = b := rfl
@[simp] theorem setDelay_ST (b : Byte) : (s.setDelay b).ST = s.ST := rfl
@[simp] theorem setDelay_mem (b : Byte) : (s.setDelay b).mem = s.mem := rfl
@[simp] theorem setDelay_fb (b : Byte) : (s.setDelay b).fb = s.fb := rfl
@[simp] theorem setDelay_dirty (b : Byte) : (s.setDelay b).dirty = s.dirty := rfl
@[simp] theorem setDelay_keys (b : Byte) : (s.setDelay b).keys = s.keys := rfl
@[simp] theorem setDelay_prevKeys (b : Byte) : (s.setDelay b).prevKeys = s.prevKeys := rfl
@[simp] theorem setDelay_mode (b : Byte) : (s.setDelay b).mode = s.mode := rfl
@[simp] theorem setDelay_queue (b : Byte) : (s.setDelay b).queue = s.queue := rfl
@[simp] theorem setDelay_cfg (b : Byte) : (s.setDelay b).cfg = s.cfg := rfl
@[simp] theorem setDelay_agenda (b : Byte) : (s.setDelay b).agenda = s.agenda := rfl
@[simp] theorem setDelay_choiceCount (b : Byte) : (s.setDelay b).choiceCount = s.choiceCount := rfl
@[simp] theorem setDelay_drawCount (b : Byte) : (s.setDelay b).drawCount = s.drawCount := rfl
@[simp] theorem setDelay_lastSnapshot (b : Byte) : (s.setDelay b).lastSnapshot = s.lastSnapshot := rfl

/-! ## setSound -/

@[simp] theorem setSound_V (b : Byte) : (s.setSound b).V = s.V := rfl
@[simp] theorem setSound_I (b : Byte) : (s.setSound b).I = s.I := rfl
@[simp] theorem setSound_PC (b : Byte) : (s.setSound b).PC = s.PC := rfl
@[simp] theorem setSound_SP (b : Byte) : (s.setSound b).SP = s.SP := rfl
@[simp] theorem setSound_stack (b : Byte) : (s.setSound b).stack = s.stack := rfl
@[simp] theorem setSound_DT (b : Byte) : (s.setSound b).DT = s.DT := rfl
@[simp] theorem setSound_ST (b : Byte) : (s.setSound b).ST = b := rfl
@[simp] theorem setSound_mem (b : Byte) : (s.setSound b).mem = s.mem := rfl
@[simp] theorem setSound_fb (b : Byte) : (s.setSound b).fb = s.fb := rfl
@[simp] theorem setSound_dirty (b : Byte) : (s.setSound b).dirty = s.dirty := rfl
@[simp] theorem setSound_keys (b : Byte) : (s.setSound b).keys = s.keys := rfl
@[simp] theorem setSound_prevKeys (b : Byte) : (s.setSound b).prevKeys = s.prevKeys := rfl
@[simp] theorem setSound_mode (b : Byte) : (s.setSound b).mode = s.mode := rfl
@[simp] theorem setSound_queue (b : Byte) : (s.setSound b).queue = s.queue := rfl
@[simp] theorem setSound_cfg (b : Byte) : (s.setSound b).cfg = s.cfg := rfl
@[simp] theorem setSound_agenda (b : Byte) : (s.setSound b).agenda = s.agenda := rfl
@[simp] theorem setSound_choiceCount (b : Byte) : (s.setSound b).choiceCount = s.choiceCount := rfl
@[simp] theorem setSound_drawCount (b : Byte) : (s.setSound b).drawCount = s.drawCount := rfl
@[simp] theorem setSound_lastSnapshot (b : Byte) : (s.setSound b).lastSnapshot = s.lastSnapshot := rfl

/-! ## storeBytes -/

@[simp] theorem storeBytes_V (a : Nat) (bs : List Byte) : (s.storeBytes a bs).V = s.V := rfl
@[simp] theorem storeBytes_I (a : Nat) (bs : List Byte) : (s.storeBytes a bs).I = s.I := rfl
@[simp] theorem storeBytes_PC (a : Nat) (bs : List Byte) : (s.storeBytes a bs).PC = s.PC := rfl
@[simp] theorem storeBytes_SP (a : Nat) (bs : List Byte) : (s.storeBytes a bs).SP = s.SP := rfl
@[simp] theorem storeBytes_stack (a : Nat) (bs : List Byte) : (s.storeBytes a bs).stack = s.stack := rfl
@[simp] theorem storeBytes_DT (a : Nat) (bs : List Byte) : (s.storeBytes a bs).DT = s.DT := rfl
@[simp] theorem storeBytes_ST (a : Nat) (bs : List Byte) : (s.storeBytes a bs).ST = s.ST := rfl
@[simp] theorem storeBytes_mem (a : Nat) (bs : List Byte) : (s.storeBytes a bs).mem = Memory.writeSeq s.cfg.font s.mem a bs := rfl
@[simp] theorem storeBytes_fb (a : Nat) (bs : List Byte) : (s.storeBytes a bs).fb = s.fb := rfl
@[simp] theorem storeBytes_dirty (a : Nat) (bs : List Byte) : (s.storeBytes a bs).dirty = s.dirty := rfl
@[simp] theorem storeBytes_keys (a : Nat) (bs : List Byte) : (s.storeBytes a bs).keys = s.keys := rfl
@[simp] theorem storeBytes_prevKeys (a : Nat) (bs : List Byte) : (s.storeBytes a bs).prevKeys = s.prevKeys := rfl
@[simp] theorem storeBytes_mode (a : Nat) (bs : List Byte) : (s.storeBytes a bs).mode = s.mode := rfl
@[simp] theorem storeBytes_queue (a : Nat) (bs : List Byte) : (s.storeBytes a bs).queue = s.queue := rfl
@[simp] theorem storeBytes_cfg (a : Nat) (bs : List Byte) : (s.storeBytes a bs).cfg = s.cfg := rfl
@[simp] theorem storeBytes_agenda (a : Nat) (bs : List Byte) : (s.storeBytes a bs).agenda = s.agenda := rfl
@[simp] theorem storeBytes_choiceCount (a : Nat) (bs : List Byte) : (s.storeBytes a bs).choiceCount = s.choiceCount := rfl
@[simp] theorem storeBytes_drawCount (a : Nat) (bs : List Byte) : (s.storeBytes a bs).drawCount = s.drawCount := rfl
@[simp] theorem storeBytes_lastSnapshot (a : Nat) (bs : List Byte) : (s.storeBytes a bs).lastSnapshot = s.lastSnapshot := rfl

/-! ## retire -/

@[simp] theorem retire_V (w : Word) : (s.retire w).V = s.V := rfl
@[simp] theorem retire_I (w : Word) : (s.retire w).I = s.I := rfl
@[simp] theorem retire_PC (w : Word) : (s.retire w).PC = w := rfl
@[simp] theorem retire_SP (w : Word) : (s.retire w).SP = s.SP := rfl
@[simp] theorem retire_stack (w : Word) : (s.retire w).stack = s.stack := rfl
@[simp] theorem retire_DT (w : Word) : (s.retire w).DT = s.DT := rfl
@[simp] theorem retire_ST (w : Word) : (s.retire w).ST = s.ST := rfl
@[simp] theorem retire_mem (w : Word) : (s.retire w).mem = s.mem := rfl
@[simp] theorem retire_fb (w : Word) : (s.retire w).fb = s.fb := rfl
@[simp] theorem retire_dirty (w : Word) : (s.retire w).dirty = s.dirty := rfl
@[simp] theorem retire_keys (w : Word) : (s.retire w).keys = s.keys := rfl
@[simp] theorem retire_prevKeys (w : Word) : (s.retire w).prevKeys = s.keys := rfl
@[simp] theorem retire_mode (w : Word) : (s.retire w).mode = s.mode := rfl
@[simp] theorem retire_queue (w : Word) : (s.retire w).queue = s.queue := rfl
@[simp] theorem retire_cfg (w : Word) : (s.retire w).cfg = s.cfg := rfl
@[simp] theorem retire_agenda (w : Word) : (s.retire w).agenda = s.agenda := rfl
@[simp] theorem retire_choiceCount (w : Word) : (s.retire w).choiceCount = s.choiceCount := rfl
@[simp] theorem retire_drawCount (w : Word) : (s.retire w).drawCount = s.drawCount := rfl
@[simp] theorem retire_lastSnapshot (w : Word) : (s.retire w).lastSnapshot = s.lastSnapshot := rfl

/-! ## enterFault -/

@[simp] theorem enterFault_V (f : SessionFault) : (s.enterFault f).V = s.V := rfl
@[simp] theorem enterFault_I (f : SessionFault) : (s.enterFault f).I = s.I := rfl
@[simp] theorem enterFault_PC (f : SessionFault) : (s.enterFault f).PC = s.PC := rfl
@[simp] theorem enterFault_SP (f : SessionFault) : (s.enterFault f).SP = s.SP := rfl
@[simp] theorem enterFault_stack (f : SessionFault) : (s.enterFault f).stack = s.stack := rfl
@[simp] theorem enterFault_DT (f : SessionFault) : (s.enterFault f).DT = s.DT := rfl
@[simp] theorem enterFault_ST (f : SessionFault) : (s.enterFault f).ST = s.ST := rfl
@[simp] theorem enterFault_mem (f : SessionFault) : (s.enterFault f).mem = s.mem := rfl
@[simp] theorem enterFault_fb (f : SessionFault) : (s.enterFault f).fb = s.fb := rfl
@[simp] theorem enterFault_dirty (f : SessionFault) : (s.enterFault f).dirty = s.dirty := rfl
@[simp] theorem enterFault_keys (f : SessionFault) : (s.enterFault f).keys = s.keys := rfl
@[simp] theorem enterFault_prevKeys (f : SessionFault) : (s.enterFault f).prevKeys = s.prevKeys := rfl
@[simp] theorem enterFault_mode (f : SessionFault) : (s.enterFault f).mode = .faulted f := rfl
@[simp] theorem enterFault_queue (f : SessionFault) : (s.enterFault f).queue = s.queue := rfl
@[simp] theorem enterFault_cfg (f : SessionFault) : (s.enterFault f).cfg = s.cfg := rfl
@[simp] theorem enterFault_agenda (f : SessionFault) : (s.enterFault f).agenda = s.agenda := rfl
@[simp] theorem enterFault_choiceCount (f : SessionFault) : (s.enterFault f).choiceCount = s.choiceCount := rfl
@[simp] theorem enterFault_drawCount (f : SessionFault) : (s.enterFault f).drawCount = s.drawCount := rfl
@[simp] theorem enterFault_lastSnapshot (f : SessionFault) : (s.enterFault f).lastSnapshot = s.lastSnapshot := rfl

/-! ## clearDisplay -/

@[simp] theorem clearDisplay_V : (s.clearDisplay).V = s.V := rfl
@[simp] theorem clearDisplay_I : (s.clearDisplay).I = s.I := rfl
@[simp] theorem clearDisplay_PC : (s.clearDisplay).PC = s.PC := rfl
@[simp] theorem clearDisplay_SP : (s.clearDisplay).SP = s.SP := rfl
@[simp] theorem clearDisplay_stack : (s.clearDisplay).stack = s.stack := rfl
@[simp] theorem clearDisplay_DT : (s.clearDisplay).DT = s.DT := rfl
@[simp] theorem clearDisplay_ST : (s.clearDisplay).ST = s.ST := rfl
@[simp] theorem clearDisplay_mem : (s.clearDisplay).mem = s.mem := rfl
@[simp] theorem clearDisplay_fb : (s.clearDisplay).fb = FrameBuffer.blank := rfl
@[simp] theorem clearDisplay_dirty : (s.clearDisplay).dirty = true := rfl
@[simp] theorem clearDisplay_keys : (s.clearDisplay).keys = s.keys := rfl
@[simp] theorem clearDisplay_prevKeys : (s.clearDisplay).prevKeys = s.prevKeys := rfl
@[simp] theorem clearDisplay_mode : (s.clearDisplay).mode = s.mode := rfl
@[simp] theorem clearDisplay_queue : (s.clearDisplay).queue = s.queue := rfl
@[simp] theorem clearDisplay_cfg : (s.clearDisplay).cfg = s.cfg := rfl
@[simp] theorem clearDisplay_agenda : (s.clearDisplay).agenda = s.agenda := rfl
@[simp] theorem clearDisplay_choiceCount : (s.clearDisplay).choiceCount = s.choiceCount := rfl
@[simp] theorem clearDisplay_drawCount : (s.clearDisplay).drawCount = s.drawCount := rfl
@[simp] theorem clearDisplay_lastSnapshot : (s.clearDisplay).lastSnapshot = s.lastSnapshot := rfl

/-! ## setDisplay -/

@[simp] theorem setDisplay_V (fb : FrameBuffer) : (s.setDisplay fb).V = s.V := rfl
@[simp] theorem setDisplay_I (fb : FrameBuffer) : (s.setDisplay fb).I = s.I := rfl
@[simp] theorem setDisplay_PC (fb : FrameBuffer) : (s.setDisplay fb).PC = s.PC := rfl
@[simp] theorem setDisplay_SP (fb : FrameBuffer) : (s.setDisplay fb).SP = s.SP := rfl
@[simp] theorem setDisplay_stack (fb : FrameBuffer) : (s.setDisplay fb).stack = s.stack := rfl
@[simp] theorem setDisplay_DT (fb : FrameBuffer) : (s.setDisplay fb).DT = s.DT := rfl
@[simp] theorem setDisplay_ST (fb : FrameBuffer) : (s.setDisplay fb).ST = s.ST := rfl
@[simp] theorem setDisplay_mem (fb : FrameBuffer) : (s.setDisplay fb).mem = s.mem := rfl
@[simp] theorem setDisplay_fb (fb : FrameBuffer) : (s.setDisplay fb).fb = fb := rfl
@[simp] theorem setDisplay_dirty (fb : FrameBuffer) : (s.setDisplay fb).dirty = true := rfl
@[simp] theorem setDisplay_keys (fb : FrameBuffer) : (s.setDisplay fb).keys = s.keys := rfl
@[simp] theorem setDisplay_prevKeys (fb : FrameBuffer) : (s.setDisplay fb).prevKeys = s.prevKeys := rfl
@[simp] theorem setDisplay_mode (fb : FrameBuffer) : (s.setDisplay fb).mode = s.mode := rfl
@[simp] theorem setDisplay_queue (fb : FrameBuffer) : (s.setDisplay fb).queue = s.queue := rfl
@[simp] theorem setDisplay_cfg (fb : FrameBuffer) : (s.setDisplay fb).cfg = s.cfg := rfl
@[simp] theorem setDisplay_agenda (fb : FrameBuffer) : (s.setDisplay fb).agenda = s.agenda := rfl
@[simp] theorem setDisplay_choiceCount (fb : FrameBuffer) : (s.setDisplay fb).choiceCount = s.choiceCount := rfl
@[simp] theorem setDisplay_drawCount (fb : FrameBuffer) : (s.setDisplay fb).drawCount = s.drawCount := rfl
@[simp] theorem setDisplay_lastSnapshot (fb : FrameBuffer) : (s.setDisplay fb).lastSnapshot = s.lastSnapshot := rfl

/-! ## takeSnapshot -/

@[simp] theorem takeSnapshot_V : (s.takeSnapshot).V = s.V := rfl
@[simp] theorem takeSnapshot_I : (s.takeSnapshot).I = s.I := rfl
@[simp] theorem takeSnapshot_PC : (s.takeSnapshot).PC = s.PC := rfl
@[simp] theorem takeSnapshot_SP : (s.takeSnapshot).SP = s.SP := rfl
@[simp] theorem takeSnapshot_stack : (s.takeSnapshot).stack = s.stack := rfl
@[simp] theorem takeSnapshot_DT : (s.takeSnapshot).DT = s.DT := rfl
@[simp] theorem takeSnapshot_ST : (s.takeSnapshot).ST = s.ST := rfl
@[simp] theorem takeSnapshot_mem : (s.takeSnapshot).mem = s.mem := rfl
@[simp] theorem takeSnapshot_fb : (s.takeSnapshot).fb = s.fb := rfl
@[simp] theorem takeSnapshot_dirty : (s.takeSnapshot).dirty = false := rfl
@[simp] theorem takeSnapshot_keys : (s.takeSnapshot).keys = s.keys := rfl
@[simp] theorem takeSnapshot_prevKeys : (s.takeSnapshot).prevKeys = s.prevKeys := rfl
@[simp] theorem takeSnapshot_mode : (s.takeSnapshot).mode = s.mode := rfl
@[simp] theorem takeSnapshot_queue : (s.takeSnapshot).queue = s.queue := rfl
@[simp] theorem takeSnapshot_cfg : (s.takeSnapshot).cfg = s.cfg := rfl
@[simp] theorem takeSnapshot_agenda : (s.takeSnapshot).agenda = s.agenda := rfl
@[simp] theorem takeSnapshot_choiceCount : (s.takeSnapshot).choiceCount = s.choiceCount := rfl
@[simp] theorem takeSnapshot_drawCount : (s.takeSnapshot).drawCount = s.drawCount := rfl
@[simp] theorem takeSnapshot_lastSnapshot : (s.takeSnapshot).lastSnapshot = some ⟨s.fb, s.dirty⟩ := rfl

/-! ## tick -/

@[simp] theorem tick_V : (s.tick).V = s.V := rfl
@[simp] theorem tick_I : (s.tick).I = s.I := rfl
@[simp] theorem tick_PC : (s.tick).PC = s.PC := rfl
@[simp] theorem tick_SP : (s.tick).SP = s.SP := rfl
@[simp] theorem tick_stack : (s.tick).stack = s.stack := rfl
@[simp] theorem tick_DT : (s.tick).DT = countDown s.DT := rfl
@[simp] theorem tick_ST : (s.tick).ST = countDown s.ST := rfl
@[simp] theorem tick_mem : (s.tick).mem = s.mem := rfl
@[simp] theorem tick_fb : (s.tick).fb = s.fb := rfl
@[simp] theorem tick_dirty : (s.tick).dirty = s.dirty := rfl
@[simp] theorem tick_keys : (s.tick).keys = s.keys := rfl
@[simp] theorem tick_prevKeys : (s.tick).prevKeys = s.prevKeys := rfl
@[simp] theorem tick_mode : (s.tick).mode = s.mode := rfl
@[simp] theorem tick_queue : (s.tick).queue = s.queue := rfl
@[simp] theorem tick_cfg : (s.tick).cfg = s.cfg := rfl
@[simp] theorem tick_agenda : (s.tick).agenda = s.agenda := rfl
@[simp] theorem tick_choiceCount : (s.tick).choiceCount = s.choiceCount := rfl
@[simp] theorem tick_drawCount : (s.tick).drawCount = s.drawCount := rfl
@[simp] theorem tick_lastSnapshot : (s.tick).lastSnapshot = s.lastSnapshot := rfl

end Sys2Proof.Machine.State
end

