-- ==== Sys2Proof/Laws/Ops.lean ====
section
/-! SUPPORT. What each shared operation does, said once: register writes, the dump and the load of registers, stored bytes,
the range check, the call stack, skips, the result-and-flag write, completion and fault entry. -/

namespace Sys2Proof.Machine

/-! ## Registers -/

/-- A register written reads as the value written; every other register is unchanged. -/
theorem State.reg_setReg (s : State) (x r : Reg) (b : Byte) :
    (s.setReg x b).reg r = if r = x then b else s.reg r := by
  by_cases h : r = x
  · subst h
    simp [State.reg, State.setReg]
  · have hv : ¬ (x : Nat) = r := fun h' => h (Fin.ext h'.symm)
    simp [State.reg, State.setReg, h, hv, Vector.getElem_set_ne]

@[simp] theorem State.reg_setReg_same (s : State) (x : Reg) (b : Byte) : (s.setReg x b).reg x = b := by
  simp [State.reg_setReg]

theorem State.reg_setReg_other (s : State) {x r : Reg} (b : Byte) (h : r ≠ x) :
    (s.setReg x b).reg r = s.reg r := by
  simp [State.reg_setReg, h]

@[simp] theorem State.reg_retire (s : State) (w : Word) (r : Reg) : (s.retire w).reg r = s.reg r := rfl
@[simp] theorem State.reg_setIndex (s : State) (w : Word) (r : Reg) : (s.setIndex w).reg r = s.reg r := rfl
@[simp] theorem State.reg_setDisplay (s : State) (fb : FrameBuffer) (r : Reg) :
    (s.setDisplay fb).reg r = s.reg r := rfl
@[simp] theorem State.byteAt_retire (s : State) (w : Word) (a : Nat) : (s.retire w).byteAt a = s.byteAt a := rfl
@[simp] theorem State.byteAt_setReg (s : State) (x : Reg) (b : Byte) (a : Nat) :
    (s.setReg x b).byteAt a = s.byteAt a := rfl
@[simp] theorem State.byteAt_setIndex (s : State) (w : Word) (a : Nat) : (s.setIndex w).byteAt a = s.byteAt a := rfl

/-- Loading registers writes nothing but V. -/
theorem State.setRegsFrom_eq (s : State) (k : Nat) (bs : List Byte) :
    s.setRegsFrom k bs = { s with V := (s.setRegsFrom k bs).V } := by
  induction bs generalizing s k with
  | nil => rfl
  | cons b bs ih => rw [State.setRegsFrom]; exact ih _ _

/-- Loading registers from number `k` on: the registers of the range take the bytes, the others are unchanged. -/
theorem State.reg_setRegsFrom (s : State) (k : Nat) (bs : List Byte) (r : Reg) :
    (s.setRegsFrom k bs).reg r = if k ≤ r.val then (bs[r.val - k]?).getD (s.reg r) else s.reg r := by
  induction bs generalizing s k with
  | nil => simp [State.setRegsFrom]
  | cons b bs ih =>
    rw [State.setRegsFrom, ih]
    have hreg : State.reg { s with V := s.V.setIfInBounds k b } r = if k = r.val then b else s.reg r := by
      simp [State.reg, Vector.getElem_setIfInBounds]
    rw [hreg]
    by_cases h1 : k = r.val
    · subst h1
      simp
    · by_cases h2 : k + 1 ≤ r.val
      · have h3 : k ≤ r.val := by omega
        have h4 : r.val - k = (r.val - (k + 1)) + 1 := by omega
        simp [h1, h2, h3, h4]
      · have h3 : ¬ k ≤ r.val := by omega
        simp [h1, h2, h3]

@[simp] theorem State.length_regsUpTo (s : State) (x : Reg) : (s.regsUpTo x).length = x.val + 1 := by
  simp [State.regsUpTo, dumpCount]

/-- The k-th byte of a register dump is `V[k]`. -/
theorem State.getElem?_regsUpTo (s : State) (x r : Reg) (h : r ≤ x) :
    (s.regsUpTo x)[r.val]? = some (s.reg r) := by
  have hr : r.val < dumpCount x := by
    have : r.val ≤ x.val := h
    simp [dumpCount]; omega
  simp [State.regsUpTo, State.reg, List.getElem?_take_of_lt hr]

/-! ## Memory -/

@[simp] theorem State.length_bytesAt (s : State) (a n : Nat) : (s.bytesAt a n).length = n := by
  simp [State.bytesAt]

theorem State.getElem?_bytesAt (s : State) (a n k : Nat) (h : k < n) :
    (s.bytesAt a n)[k]? = some (s.byteAt (a + k)) := by
  simp [State.bytesAt, h]

/-- Bytes stored inside memory read back; every address outside them reads as before. -/
theorem State.byteAt_storeBytes (s : State) (a : Nat) (bs : List Byte) (h : Safety.memOk s)
    (ha : a + bs.length ≤ memSize) (a' : Nat) :
    (s.storeBytes a bs).byteAt a' = if a ≤ a' then (bs[a' - a]?).getD (s.byteAt a') else s.byteAt a' :=
  Memory.read_writeSeq h ha a'

theorem State.byteAt_storeBytes_outside (s : State) (a : Nat) (bs : List Byte) (h : Safety.memOk s)
    (ha : a + bs.length ≤ memSize) (a' : Nat) (hout : a' < a ∨ a + bs.length ≤ a') :
    (s.storeBytes a bs).byteAt a' = s.byteAt a' := by
  rw [State.byteAt_storeBytes s a bs h ha]
  split
  · have : bs[a' - a]? = none := by simp; omega
    simp [this]
  · rfl

theorem State.memOk_storeBytes (s : State) (a : Nat) (bs : List Byte) (h : Safety.memOk s)
    (ha : a + bs.length ≤ memSize) : Safety.memOk (s.storeBytes a bs) :=
  Memory.writeSeq_wf h ha

/-! ## Completion, faults and the range check -/

theorem complete_eq_next {s t u : State} : complete s t = .next u ↔ u = t.retire s.nextPC := by
  simp [complete, eq_comm]

theorem raise_eq_next {f : SessionFault} {s u : State} : raise f s = .next u ↔ u = s.enterFault f := by
  simp [raise, eq_comm]

/-- The checked access: either it is out of range and the fault is entered, or it goes on as given. -/
theorem checked_cases (s : State) (base len : Nat) (k : Host.Outcome State Fault Refusal) :
    (memSize < base + len ∧ len ≠ 0 ∧
      checked s base len k = .next (s.enterFault (.boundsHazard (.memoryRange (max base memSize))))) ∨
    ((len = 0 ∨ base + len ≤ memSize) ∧ checked s base len k = k) := by
  unfold checked
  cases h : outOfRange base len with
  | none => exact Or.inr ⟨outOfRange_eq_none.1 h, rfl⟩
  | some a =>
    obtain ⟨h1, h2, rfl⟩ := outOfRange_eq_some.1 h
    exact Or.inl ⟨h1, h2, rfl⟩

theorem checked_of_inRange {s : State} {base len : Nat} {k : Host.Outcome State Fault Refusal}
    (h : len = 0 ∨ base + len ≤ memSize) : checked s base len k = k := by
  simp [checked, outOfRange_eq_none.2 h]

theorem checked_of_outOfRange {s : State} {base len : Nat} {k : Host.Outcome State Fault Refusal}
    (h : memSize < base + len) (hl : len ≠ 0) :
    checked s base len k = .next (s.enterFault (.boundsHazard (.memoryRange (max base memSize)))) := by
  have := outOfRange_eq_some.2 ⟨h, hl, rfl⟩
  simp [checked, this, raiseHazard, raise]

/-! ## The call stack -/

/-- A push: none where 32 entries are in use, else the entry and the count. -/
theorem State.push_cases (s : State) (a : Word) :
    (s.SP = 32 ∧ s.push a = none) ∨
    (∃ h : s.SP.val < 32, s.push a =
      some { s with stack := s.stack.set s.SP.val a, SP := ⟨s.SP.val + 1, by omega⟩ }) := by
  unfold State.push
  by_cases h : s.SP.val < 32
  · exact Or.inr ⟨h, by simp [h]⟩
  · refine Or.inl ⟨Fin.ext ?_, by simp [h]⟩
    have := s.SP.isLt
    change s.SP.val = 32
    omega

/-- A pop: none where the stack is empty, else the newest entry and the count, the entry kept. -/
theorem State.pop_cases (s : State) :
    (s.SP = 0 ∧ s.pop = none) ∨
    (∃ h : 0 < s.SP.val, s.pop =
      some (s.stack[s.SP.val - 1]'(by omega), { s with SP := ⟨s.SP.val - 1, by omega⟩ })) := by
  unfold State.pop
  by_cases h : 0 < s.SP.val
  · exact Or.inr ⟨h, by simp [h]⟩
  · refine Or.inl ⟨Fin.ext ?_, by simp [h]⟩
    change s.SP.val = 0
    omega

/-! ## The result-and-flag write -/

/-- Writing a result and a flag writes nothing but V. -/
theorem State.writeResultAndFlag_eq (s : State) (x : Reg) (r f : Byte) :
    s.writeResultAndFlag x r f = { s with V := (s.writeResultAndFlag x r f).V } := by
  unfold State.writeResultAndFlag
  cases s.cfg.vfWriteOrder <;> rfl

/-- The registers after a result and a flag: the flag in VF and the result in `V[x]`; where both are VF, the order
parameter says which stays. -/
theorem State.reg_writeResultAndFlag (s : State) (x r : Reg) (v f : Byte) :
    (s.writeResultAndFlag x v f).reg r =
      if r = flagReg then (if x = flagReg ∧ s.cfg.vfWriteOrder = .resultLast then v else f)
      else if r = x then v else s.reg r := by
  unfold State.writeResultAndFlag
  cases s.cfg.vfWriteOrder with
  | flagLast => simp [State.reg_setReg]
  | resultLast =>
    by_cases h1 : r = flagReg
    · subst h1
      by_cases h2 : x = flagReg
      · simp [h2]
      · simp [State.reg_setReg, h2, Ne.symm h2]
    · simp [State.reg_setReg, h1]

end Sys2Proof.Machine
end

