-- ==== Sys2Proof/Laws/PerInstr.lean ====
section
/-! SUPPORT. Statements about every instruction as syntax, one lemma per constructor: the encoder's word decodes to the
instruction it was written for. -/

-- One proof after another: together they would ask for many threads' stacks at once.
set_option Elab.async false

namespace Sys2Proof.Laws

/-- The word the encoder writes for a well-formed instruction is decoded to that instruction. -/
def RoundTrip.Statement (i : Instr) : Prop := i.wf = true → decode (encode i) = some i

theorem RoundTrip.cls : RoundTrip.Statement Instr.cls := by
  intro _; decide

theorem RoundTrip.ret : RoundTrip.Statement Instr.ret := by
  intro _; decide

theorem RoundTrip.sys (nnn : Addr) : RoundTrip.Statement (Instr.sys nnn) := by
  intro h
  simp only [Instr.wf, Bool.and_eq_true, bne_iff_ne, ne_eq] at h
  have h1 : OpcodeRow.holds ⟨0x00E0, 0xFFFF, fun _ => .cls⟩ (packAddr 0x0 nnn) = false := by
    rw [Bool.eq_false_iff]
    intro hc
    exact h.1 (by rw [← fieldNnn_packAddr 0x0 nnn, OpcodeRow.eq_of_full_mask hc]; decide)
  have h2 : OpcodeRow.holds ⟨0x00EE, 0xFFFF, fun _ => .ret⟩ (packAddr 0x0 nnn) = false := by
    rw [Bool.eq_false_iff]
    intro hc
    exact h.2 (by rw [← fieldNnn_packAddr 0x0 nnn, OpcodeRow.eq_of_full_mask hc]; decide)
  have h3 : OpcodeRow.holds ⟨0x0000, 0xF000, fun w => .sys (fieldNnn w)⟩ (packAddr 0x0 nnn) = true := by
    rw [holds_packAddr]
    simp
  simp only [encode, decode_eq_find, opcodeRows1, List.cons_append, List.find?_cons, h1, h2, h3, Option.map_some,
    fieldNnn_packAddr]

theorem RoundTrip.jp (nnn : Addr) : RoundTrip.Statement (Instr.jp nnn) := by
  intro _
  simp [encode, decode_eq_find, opcodeRows1, opcodeRows2, opcodeRows3, holds_packAddr]

theorem RoundTrip.call (nnn : Addr) : RoundTrip.Statement (Instr.call nnn) := by
  intro _
  simp [encode, decode_eq_find, opcodeRows1, opcodeRows2, opcodeRows3, holds_packAddr]

theorem RoundTrip.seByte (x : Reg) (kk : Byte) : RoundTrip.Statement (Instr.seByte x kk) := by
  intro _
  simp [encode, decode_eq_find, opcodeRows1, opcodeRows2, opcodeRows3, holds_packByte]

theorem RoundTrip.sneByte (x : Reg) (kk : Byte) : RoundTrip.Statement (Instr.sneByte x kk) := by
  intro _
  simp [encode, decode_eq_find, opcodeRows1, opcodeRows2, opcodeRows3, holds_packByte]

theorem RoundTrip.seReg (x : Reg) (y : Reg) : RoundTrip.Statement (Instr.seReg x y) := by
  intro _
  simp [encode, decode_eq_find, opcodeRows1, opcodeRows2, opcodeRows3, holds_packNibbles]

theorem RoundTrip.ldByte (x : Reg) (kk : Byte) : RoundTrip.Statement (Instr.ldByte x kk) := by
  intro _
  simp [encode, decode_eq_find, opcodeRows1, opcodeRows2, opcodeRows3, holds_packByte]

theorem RoundTrip.addByte (x : Reg) (kk : Byte) : RoundTrip.Statement (Instr.addByte x kk) := by
  intro _
  simp [encode, decode_eq_find, opcodeRows1, opcodeRows2, opcodeRows3, holds_packByte]

theorem RoundTrip.ldReg (x : Reg) (y : Reg) : RoundTrip.Statement (Instr.ldReg x y) := by
  intro _
  simp [encode, decode_eq_find, opcodeRows1, opcodeRows2, opcodeRows3, holds_packNibbles]

theorem RoundTrip.orReg (x : Reg) (y : Reg) : RoundTrip.Statement (Instr.orReg x y) := by
  intro _
  simp [encode, decode_eq_find, opcodeRows1, opcodeRows2, opcodeRows3, holds_packNibbles]

theorem RoundTrip.andReg (x : Reg) (y : Reg) : RoundTrip.Statement (Instr.andReg x y) := by
  intro _
  simp [encode, decode_eq_find, opcodeRows1, opcodeRows2, opcodeRows3, holds_packNibbles]

theorem RoundTrip.xorReg (x : Reg) (y : Reg) : RoundTrip.Statement (Instr.xorReg x y) := by
  intro _
  simp [encode, decode_eq_find, opcodeRows1, opcodeRows2, opcodeRows3, holds_packNibbles]

theorem RoundTrip.addReg (x : Reg) (y : Reg) : RoundTrip.Statement (Instr.addReg x y) := by
  intro _
  simp [encode, decode_eq_find, opcodeRows1, opcodeRows2, opcodeRows3, holds_packNibbles]

theorem RoundTrip.sub (x : Reg) (y : Reg) : RoundTrip.Statement (Instr.sub x y) := by
  intro _
  simp [encode, decode_eq_find, opcodeRows1, opcodeRows2, opcodeRows3, holds_packNibbles]

theorem RoundTrip.shr (x : Reg) (y : Reg) : RoundTrip.Statement (Instr.shr x y) := by
  intro _
  simp [encode, decode_eq_find, opcodeRows1, opcodeRows2, opcodeRows3, holds_packNibbles]

theorem RoundTrip.subn (x : Reg) (y : Reg) : RoundTrip.Statement (Instr.subn x y) := by
  intro _
  simp [encode, decode_eq_find, opcodeRows1, opcodeRows2, opcodeRows3, holds_packNibbles]

theorem RoundTrip.shl (x : Reg) (y : Reg) : RoundTrip.Statement (Instr.shl x y) := by
  intro _
  simp [encode, decode_eq_find, opcodeRows1, opcodeRows2, opcodeRows3, holds_packNibbles]

theorem RoundTrip.sneReg (x : Reg) (y : Reg) : RoundTrip.Statement (Instr.sneReg x y) := by
  intro _
  simp [encode, decode_eq_find, opcodeRows1, opcodeRows2, opcodeRows3, holds_packNibbles]

theorem RoundTrip.ldI (nnn : Addr) : RoundTrip.Statement (Instr.ldI nnn) := by
  intro _
  simp [encode, decode_eq_find, opcodeRows1, opcodeRows2, opcodeRows3, holds_packAddr]

theorem RoundTrip.jpV0 (nnn : Addr) : RoundTrip.Statement (Instr.jpV0 nnn) := by
  intro _
  simp [encode, decode_eq_find, opcodeRows1, opcodeRows2, opcodeRows3, holds_packAddr]

theorem RoundTrip.rnd (x : Reg) (kk : Byte) : RoundTrip.Statement (Instr.rnd x kk) := by
  intro _
  simp [encode, decode_eq_find, opcodeRows1, opcodeRows2, opcodeRows3, holds_packByte]

theorem RoundTrip.drw (x : Reg) (y : Reg) (n : Nibble) : RoundTrip.Statement (Instr.drw x y n) := by
  intro _
  simp [encode, decode_eq_find, opcodeRows1, opcodeRows2, opcodeRows3, holds_packNibbles]

theorem RoundTrip.skp (x : Reg) : RoundTrip.Statement (Instr.skp x) := by
  intro _
  simp [encode, decode_eq_find, opcodeRows1, opcodeRows2, opcodeRows3, holds_packByte]

theorem RoundTrip.sknp (x : Reg) : RoundTrip.Statement (Instr.sknp x) := by
  intro _
  simp [encode, decode_eq_find, opcodeRows1, opcodeRows2, opcodeRows3, holds_packByte]

theorem RoundTrip.ldVxDT (x : Reg) : RoundTrip.Statement (Instr.ldVxDT x) := by
  intro _
  simp [encode, decode_eq_find, opcodeRows1, opcodeRows2, opcodeRows3, holds_packByte]

theorem RoundTrip.ldVxK (x : Reg) : RoundTrip.Statement (Instr.ldVxK x) := by
  intro _
  simp [encode, decode_eq_find, opcodeRows1, opcodeRows2, opcodeRows3, holds_packByte]

theorem RoundTrip.ldDTVx (x : Reg) : RoundTrip.Statement (Instr.ldDTVx x) := by
  intro _
  simp [encode, decode_eq_find, opcodeRows1, opcodeRows2, opcodeRows3, holds_packByte]

theorem RoundTrip.ldSTVx (x : Reg) : RoundTrip.Statement (Instr.ldSTVx x) := by
  intro _
  simp [encode, decode_eq_find, opcodeRows1, opcodeRows2, opcodeRows3, holds_packByte]

theorem RoundTrip.addI (x : Reg) : RoundTrip.Statement (Instr.addI x) := by
  intro _
  simp [encode, decode_eq_find, opcodeRows1, opcodeRows2, opcodeRows3, holds_packByte]

theorem RoundTrip.ldF (x : Reg) : RoundTrip.Statement (Instr.ldF x) := by
  intro _
  simp [encode, decode_eq_find, opcodeRows1, opcodeRows2, opcodeRows3, holds_packByte]

theorem RoundTrip.ldB (x : Reg) : RoundTrip.Statement (Instr.ldB x) := by
  intro _
  simp [encode, decode_eq_find, opcodeRows1, opcodeRows2, opcodeRows3, holds_packByte]

theorem RoundTrip.storeRegs (x : Reg) : RoundTrip.Statement (Instr.storeRegs x) := by
  intro _
  simp [encode, decode_eq_find, opcodeRows1, opcodeRows2, opcodeRows3, holds_packByte]

theorem RoundTrip.loadRegs (x : Reg) : RoundTrip.Statement (Instr.loadRegs x) := by
  intro _
  simp [encode, decode_eq_find, opcodeRows1, opcodeRows2, opcodeRows3, holds_packByte]

end Sys2Proof.Laws
end

