-- ==== Sys2Proof/Laws/Step.lean ====
section
/-! SUPPORT. What choosing and serving an event can do, said once: every claim about a step goes through these. -/

namespace Sys2Proof.Machine

/-- Taking the first ready event: it is ready, it comes from the list, and the events before it stay in place. -/
theorem takeReady_some {p : Event → Bool} {l rest : List Event} {e : Event} (h : takeReady p l = some (e, rest)) :
    p e = true ∧ ∃ l₁ l₂, l = l₁ ++ e :: l₂ ∧ rest = l₁ ++ l₂ ∧ ∀ d ∈ l₁, p d = false := by
  induction l generalizing rest with
  | nil => simp [takeReady] at h
  | cons d ds ih =>
    rw [takeReady] at h
    by_cases hd : p d = true
    · simp only [hd, if_true, Option.some.injEq, Prod.mk.injEq] at h
      obtain ⟨rfl, rfl⟩ := h
      exact ⟨hd, [], ds, by simp, by simp, by simp⟩
    · simp only [hd, if_false, Bool.false_eq_true] at h
      cases hr : takeReady p ds with
      | none => simp [hr] at h
      | some q =>
        obtain ⟨f, r⟩ := q
        simp only [hr, Option.some.injEq, Prod.mk.injEq] at h
        obtain ⟨rfl, rfl⟩ := h
        obtain ⟨he, l₁, l₂, h1, h2, h3⟩ := ih hr
        refine ⟨he, d :: l₁, l₂, by simp [h1], by simp [h2], ?_⟩
        intro c hc
        rcases List.mem_cons.1 hc with rfl | hc
        · exact Bool.eq_false_iff.2 hd
        · exact h3 c hc

/-- No event is taken iff none of the list is ready. -/
theorem takeReady_none {p : Event → Bool} {l : List Event} : takeReady p l = none ↔ ∀ d ∈ l, p d = false := by
  induction l with
  | nil => simp [takeReady]
  | cons d ds ih =>
    rw [takeReady]
    by_cases hd : p d = true
    · simp [hd]
    · cases hr : takeReady p ds with
      | none => simpa [hd] using ih.1 hr
      | some q =>
        simp only [hd, Bool.false_eq_true, if_false, reduceCtorEq, false_iff]
        intro hc
        have := ih.2 (fun c hc' => hc c (List.mem_cons_of_mem d hc'))
        simp [hr] at this

@[simp] theorem takeReady_head {p : Event → Bool} {e : Event} {es : List Event} (h : p e = true) :
    takeReady p (e :: es) = some (e, es) := by
  simp [takeReady, h]

/-- The free choice is always a ready event of a live session. -/
theorem eventReady_freeChoice (s : State) (h : s.mode.ended = false) : eventReady s s.freeChoice = true := by
  unfold State.freeChoice
  split
  · assumption
  · simp [eventReady, h]

/-- Choosing an event: it is ready, and the state it is served in differs from the old one in the agenda and the count of
free choices alone. -/
theorem chooseEvent_some {s t : State} {e : Event} (h : chooseEvent s = some (e, t)) :
    eventReady s e = true ∧ t = { s with agenda := t.agenda, choiceCount := t.choiceCount } := by
  unfold chooseEvent at h
  cases ht : takeReady (eventReady s) s.agenda with
  | some q =>
    obtain ⟨f, rest⟩ := q
    simp only [ht, Option.some.injEq, Prod.mk.injEq] at h
    obtain ⟨rfl, rfl⟩ := h
    exact ⟨(takeReady_some ht).1, rfl⟩
  | none =>
    simp only [ht] at h
    by_cases hm : s.mode.ended = true
    · simp [hm] at h
    · simp only [hm, Bool.false_eq_true, if_false, Option.some.injEq, Prod.mk.injEq] at h
      obtain ⟨rfl, rfl⟩ := h
      exact ⟨eventReady_freeChoice s (Bool.eq_false_iff.2 hm), rfl⟩

/-- Choosing no event: the session has ended and no event of the agenda is ready. -/
theorem chooseEvent_none {s : State} (h : chooseEvent s = none) :
    s.mode.ended = true ∧ ∀ e ∈ s.agenda, eventReady s e = false := by
  unfold chooseEvent at h
  cases ht : takeReady (eventReady s) s.agenda with
  | some q => simp [ht] at h
  | none =>
    simp only [ht] at h
    by_cases hm : s.mode.ended = true
    · exact ⟨hm, takeReady_none.1 ht⟩
    · simp [hm] at h

/-- A ready event at the head of the agenda is the one served. -/
theorem chooseEvent_head {s : State} {e : Event} {es : List Event} (ha : s.agenda = e :: es)
    (h : eventReady s e = true) : chooseEvent s = some (e, { s with agenda := es }) := by
  simp [chooseEvent, ha, takeReady_head h]

/-- A step: one chosen event served, or the named stop of an ended session. -/
theorem step_cases (s : State) :
    (∃ e t, chooseEvent s = some (e, t) ∧ step s = serve e t) ∨
    (chooseEvent s = none ∧ step s = .fault (endOf s.mode)) := by
  unfold step iterate
  cases h : chooseEvent s with
  | none => exact Or.inr ⟨rfl, rfl⟩
  | some q => exact Or.inl ⟨q.1, q.2, rfl, rfl⟩

/-- A step with a ready event at the head of the agenda serves it. -/
theorem step_head {s : State} {e : Event} {es : List Event} (ha : s.agenda = e :: es)
    (h : eventReady s e = true) : step s = serve e { s with agenda := es } := by
  simp [step, iterate, chooseEvent_head ha h]

/-- A cycle: the fetch is out of range, or the word is illegal, or the decoded instruction runs. -/
theorem cycle_cases (s : State) :
    (memSize < s.PC.toNat + 2 ∧
      cycle s = .next (s.enterFault (.boundsHazard (.memoryRange (max s.PC.toNat memSize))))) ∨
    (s.PC.toNat + 2 ≤ memSize ∧ decode s.fetchWord = none ∧
      cycle s = .next (s.enterFault (.unrecognizedOpcode s.fetchWord))) ∨
    (∃ i, s.PC.toNat + 2 ≤ memSize ∧ decode s.fetchWord = some i ∧ cycle s = exec i s) := by
  by_cases h : s.PC.toNat + 2 ≤ memSize
  · have hk := fun k => checked_of_inRange (s := s) (k := k) (Or.inr h : 2 = 0 ∨ s.PC.toNat + 2 ≤ memSize)
    cases hd : decode s.fetchWord with
    | none => exact Or.inr (Or.inl ⟨h, rfl, by simp only [cycle, hk, hd]; rfl⟩)
    | some i => exact Or.inr (Or.inr ⟨i, h, rfl, by simp only [cycle, hk, hd]⟩)
  · have h : memSize < s.PC.toNat + 2 := by omega
    exact Or.inl ⟨h, checked_of_outOfRange h (by decide)⟩

/-- Serving an event: a cycle where the mode and the event ask for one, else the event's own update. -/
theorem serve_cases (e : Event) (s : State) :
    (e = .instruction ∧ s.mode = .running ∧ serve e s = cycle s) ∨
    (∃ q, e = .command ∧ s.mode = .paused ∧ s.queue = .step :: q ∧ serve e s = cycle { s with queue := q }) ∨
    (∃ t, serve e s = .next t ∧ t = { s with DT := t.DT, ST := t.ST, keys := t.keys, mode := t.mode, queue := t.queue, dirty := t.dirty, lastSnapshot := t.lastSnapshot }) := by
  cases e with
  | instruction =>
    by_cases h : s.mode = .running
    · exact Or.inl ⟨rfl, h, by simp [serve, h]⟩
    · exact Or.inr (Or.inr ⟨s, by simp [serve, h], rfl⟩)
  | timer => exact Or.inr (Or.inr ⟨_, rfl, rfl⟩)
  | command =>
    cases hq : s.queue with
    | nil => exact Or.inr (Or.inr ⟨s, by simp [serve, hq], rfl⟩)
    | cons c q =>
      cases c with
      | step =>
        by_cases h : s.mode = .paused
        · exact Or.inr (Or.inl ⟨q, rfl, h, rfl, by simp [serve, hq, serveCommand, h]⟩)
        · exact Or.inr (Or.inr ⟨{ s with queue := q }, by simp [serve, hq, serveCommand, h], rfl⟩)
      | pause => exact Or.inr (Or.inr ⟨_, by simp only [serve, hq, serveCommand]; rfl, rfl⟩)
      | setKeyMap m => exact Or.inr (Or.inr ⟨_, by simp only [serve, hq, serveCommand]; rfl, rfl⟩)
      | close => exact Or.inr (Or.inr ⟨_, by simp only [serve, hq, serveCommand]; rfl, rfl⟩)
  | enqueue c => exact Or.inr (Or.inr ⟨_, rfl, rfl⟩)
  | writeKeys m => exact Or.inr (Or.inr ⟨_, rfl, rfl⟩)
  | snapshot => exact Or.inr (Or.inr ⟨_, rfl, rfl⟩)

end Sys2Proof.Machine
end

