-- ==== Sys2Proof/Tests/Slice0.lean ====
section
/-! SUPPORT. Tests. Expected values come from spec/95_test_vectors.md (the vector is named) or are worked out by hand from
the rule named. Words are written bit by bit from 30_encoding.md R75. The last part shows, for each statement of
Obligations.lean with hypotheses, states and operands that meet them. -/

namespace Sys2Proof.Tests

open Sys2Proof Sys2Proof.Machine Sys2Proof.Safety

/-! ## Small states -/

/-- The reset state with some registers set. -/
def regs (l : List (Reg × Byte)) : State := l.foldl (fun s p => s.setReg p.1 p.2) State.reset

/-- A state with the bytes `bs` stored at address `a`. -/
def bytes (a : Nat) (bs : List Byte) (s : State) : State := s.storeBytes a bs

/-- The other value of `VF_WRITE_ORDER`. -/
def resultLast (s : State) : State := { s with cfg := { s.cfg with vfWriteOrder := .resultLast } }

/-- Another `KEY_INDEX_POLICY`. -/
def policy (p : KeyIndexPolicy) (s : State) : State := { s with cfg := { s.cfg with keyIndexPolicy := p } }

/-- Something read from the next state, where there is one. -/
def after {α : Type} (f : State → α) : Host.Outcome State Fault Refusal → Option α
  | .next t => some (f t)
  | .fault _ => none
  | .refused _ => none

/-- The register `x`, VF and PC of a state. -/
def xfp (x : Reg) (s : State) : Byte × Byte × Word := (s.reg x, s.reg 15, s.PC)

/-- A faulted mode of a bounds hazard. -/
def hazard (h : Hazard) : Mode := .faulted (.boundsHazard h)

/-! ## WellFormed -/

theorem test_wf_refuses_sys_of_cls : Instr.wf (.sys 0x0E0) = false := by decide
theorem test_wf_refuses_sys_of_ret : Instr.wf (.sys 0x0EE) = false := by decide
theorem test_wf_accepts : Instr.wf (.sys 0x0E1) = true ∧ Instr.wf .cls = true ∧ Instr.wf (.drw 15 0 15) = true := by decide

/-! ## Decode: every row of R75 by a word written bit by bit -/

theorem test_decode_control :
    decode 0b0000_0000_1110_1110 = some .ret ∧ decode 0b0000_0001_0010_0011 = some (.sys 0x123) ∧
    decode 0b0001_0010_0011_0100 = some (.jp 0x234) ∧ decode 0b0010_0100_0000_0001 = some (.call 0x401) ∧
    decode 0b0011_0011_0100_0010 = some (.seByte 3 0x42) ∧ decode 0b0100_0011_0100_0010 = some (.sneByte 3 0x42) ∧
    decode 0b0101_0001_0010_0000 = some (.seReg 1 2) ∧ decode 0b1001_0001_0010_0000 = some (.sneReg 1 2) ∧
    decode 0b1011_0001_0010_0011 = some (.jpV0 0x123) := by decide

theorem test_decode_alu :
    decode 0b0110_1010_0010_1111 = some (.ldByte 10 0x2F) ∧ decode 0b0111_1111_0000_0101 = some (.addByte 15 0x05) ∧
    decode 0b1000_0001_0010_0000 = some (.ldReg 1 2) ∧ decode 0b1000_0001_0010_0001 = some (.orReg 1 2) ∧
    decode 0b1000_0001_0010_0010 = some (.andReg 1 2) ∧ decode 0b1000_0001_0010_0011 = some (.xorReg 1 2) ∧
    decode 0b1000_0001_0010_0100 = some (.addReg 1 2) ∧ decode 0b1000_0001_0010_0101 = some (.sub 1 2) ∧
    decode 0b1000_0001_0010_0110 = some (.shr 1 2) ∧ decode 0b1000_0001_0010_0111 = some (.subn 1 2) ∧
    decode 0b1000_0001_0010_1110 = some (.shl 1 2) ∧ decode 0b1100_0001_0000_1111 = some (.rnd 1 0x0F) := by decide

theorem test_decode_index_memory :
    decode 0b1010_0010_1111_0000 = some (.ldI 0x2F0) ∧ decode 0b1111_0001_0001_1110 = some (.addI 1) ∧
    decode 0b1111_0100_0010_1001 = some (.ldF 4) ∧ decode 0b1111_0000_0011_0011 = some (.ldB 0) ∧
    decode 0b1111_0100_0101_0101 = some (.storeRegs 4) ∧ decode 0b1111_0100_0110_0101 = some (.loadRegs 4) := by decide

theorem test_decode_display :
    decode 0b0000_0000_1110_0000 = some .cls ∧ decode 0b1101_0001_0010_0110 = some (.drw 1 2 6) ∧
    decode 0b1101_0001_0010_0000 = some (.drw 1 2 0) := by decide

theorem test_decode_timers_keys :
    decode 0b1111_0101_0000_0111 = some (.ldVxDT 5) ∧ decode 0b1111_0101_0000_1010 = some (.ldVxK 5) ∧
    decode 0b1111_0101_0001_0101 = some (.ldDTVx 5) ∧ decode 0b1111_0101_0001_1000 = some (.ldSTVx 5) ∧
    decode 0b1110_1010_1001_1110 = some (.skp 10) ∧ decode 0b1110_1010_1010_0001 = some (.sknp 10) := by decide

/-- Vectors DE3, DE4, DE5, DE7, DE8, DE9. -/
theorem test_decode_sys_and_illegal :
    decode 0x0000 = some (.sys 0) ∧ decode 0x00E1 = some (.sys 0x0E1) ∧ decode 0x00FF = some (.sys 0x0FF) ∧
    ([0x5121, 0x8128, 0x812F, 0x9121, 0xE19F, 0xE1A2, 0xF108, 0xF1FF, 0xFFFF] : List Word).all
      (fun w => decode w == none) = true := by decide

/-- The high byte lies at the lower address (20_memory.md R55). -/
theorem test_decode_bytes :
    decodeBytes [0x81, 0x25, 0x00] = .instr (.sub 1 2) [0x00] ∧
    decodeBytes [0xFF, 0xFF] = .unrecognizedOpcode 0xFFFF ∧
    decodeBytes [0x81] = .truncated ∧ decodeTableWord 16 0x8125 = some (.sub 1 2) := by decide

theorem test_encode : encode (.sub 1 2) = 0x8125 ∧ encode (.jpV0 0x123) = 0xB123 ∧ encode (.skp 10) = 0xEA9E ∧
    encodeBytes (.drw 1 2 6) = [0xD1, 0x26] := by decide

/-! ## Control transfer -/

/-- Vectors CF1, CF2. -/
theorem test_sys_jp :
    after State.PC (exec (.sys 0x123) State.reset) = some 0x202 ∧
    after State.PC (exec (.jp 0x234) State.reset) = some 0x234 := by decide

/-- Vectors CF3, CF4. -/
theorem test_call :
    after (fun t => (t.stack[0], t.SP, t.PC)) (exec (.call 0x400) State.reset) = some (0x202, 1, 0x400) ∧
    after (fun t => (t.mode, t.SP, t.PC)) (exec (.call 0x400) { State.reset with SP := 32 }) =
      some (hazard .stackOverflow, 32, 0x200) := by decide

/-- Vectors CF6, CF5. -/
theorem test_ret :
    after (fun t => (t.stack[1], t.SP, t.PC))
      (exec .ret { State.reset with SP := 2, stack := (State.reset.stack.set 0 0x202).set 1 0x40A }) =
      some (0x40A, 1, 0x40A) ∧
    after (fun t => (t.mode, t.SP, t.PC)) (exec .ret State.reset) = some (hazard .stackUnderflow, 0, 0x200) := by decide

/-- Vectors CF8, CF9. -/
theorem test_jpV0 :
    after State.PC (exec (.jpV0 0x300) (regs [(0, 0x04)])) = some 0x304 ∧
    after State.PC (exec (.jpV0 0xFFF) (regs [(0, 0xFF)])) = some 0x10FE := by decide

/-- Vectors CF11 to CF13. -/
theorem test_skip_byte :
    after State.PC (exec (.seByte 3 0x42) (regs [(3, 0x42)])) = some 0x204 ∧
    after State.PC (exec (.seByte 3 0x42) (regs [(3, 0x41)])) = some 0x202 ∧
    after State.PC (exec (.sneByte 3 0x42) (regs [(3, 0x41)])) = some 0x204 ∧
    after State.PC (exec (.sneByte 3 0x42) (regs [(3, 0x42)])) = some 0x202 := by decide

/-- Vectors CF14 to CF17. -/
theorem test_skip_reg :
    after State.PC (exec (.seReg 1 2) (regs [(1, 7), (2, 7)])) = some 0x204 ∧
    after State.PC (exec (.seReg 1 2) (regs [(1, 7), (2, 8)])) = some 0x202 ∧
    after State.PC (exec (.sneReg 1 2) (regs [(1, 7), (2, 8)])) = some 0x204 ∧
    after State.PC (exec (.sneReg 1 1) (regs [(1, 7)])) = some 0x202 := by decide

/-! ## Registers and ALU -/

/-- Vectors AL25, AL26, AL27, AL24. -/
theorem test_load_and_add_byte :
    after (xfp 10) (exec (.ldByte 10 0x2F) State.reset) = some (0x2F, 0, 0x202) ∧
    after (xfp 1) (exec (.addByte 1 0x01) (regs [(1, 0xFF)])) = some (0x00, 0x00, 0x202) ∧
    after (xfp 15) (exec (.addByte 15 0x05) (regs [(15, 0x10)])) = some (0x15, 0x15, 0x202) ∧
    after (xfp 1) (exec (.ldReg 1 2) (regs [(1, 0x12), (2, 0x34), (15, 0x07)])) = some (0x34, 0x07, 0x202) := by decide

/-- Vectors AL21 to AL23. -/
theorem test_logic :
    after (xfp 1) (exec (.orReg 1 2) (regs [(1, 0xF0), (2, 0x0F), (15, 1)])) = some (0xFF, 0, 0x202) ∧
    after (xfp 1) (exec (.andReg 1 2) (regs [(1, 0xF0), (2, 0x3C), (15, 1)])) = some (0x30, 0, 0x202) ∧
    after (xfp 1) (exec (.xorReg 1 2) (regs [(1, 0xFF), (2, 0x0F), (15, 1)])) = some (0xF0, 0, 0x202) := by decide

/-- Vectors AL1 to AL5. -/
theorem test_add :
    after (xfp 1) (exec (.addReg 1 2) (regs [(1, 0xFF), (2, 0x01)])) = some (0x00, 1, 0x202) ∧
    after (xfp 1) (exec (.addReg 1 2) (regs [(1, 0x80), (2, 0x7F)])) = some (0xFF, 0, 0x202) ∧
    after (xfp 1) (exec (.addReg 1 1) (regs [(1, 0x90)])) = some (0x20, 1, 0x202) ∧
    after (xfp 15) (exec (.addReg 15 1) (regs [(15, 0xFF), (1, 1)])) = some (1, 1, 0x202) ∧
    after (xfp 15) (exec (.addReg 15 1) (resultLast (regs [(15, 0xFF), (1, 1)]))) = some (0, 0, 0x202) := by decide

/-- Vectors AL6 to AL10 and S2. -/
theorem test_sub :
    after (xfp 1) (exec (.sub 1 2) (regs [(1, 0xFE), (2, 0x01)])) = some (0xFD, 1, 0x202) ∧
    after (xfp 1) (exec (.sub 1 2) (regs [(1, 0x07), (2, 0x07)])) = some (0x00, 0, 0x202) ∧
    after (xfp 1) (exec (.sub 1 2) (regs [(1, 0x03), (2, 0x05)])) = some (0xFE, 0, 0x202) ∧
    after (xfp 15) (exec (.sub 15 1) (regs [(15, 0x05), (1, 3)])) = some (1, 1, 0x202) ∧
    after (xfp 15) (exec (.sub 15 1) (resultLast (regs [(15, 0x05), (1, 3)]))) = some (2, 2, 0x202) := by decide

/-- Vectors AL11 to AL13. -/
theorem test_subn :
    after (xfp 1) (exec (.subn 1 2) (regs [(1, 0x03), (2, 0x05)])) = some (0x02, 1, 0x202) ∧
    after (xfp 1) (exec (.subn 1 2) (regs [(1, 0x05), (2, 0x03)])) = some (0xFE, 0, 0x202) ∧
    after (xfp 1) (exec (.subn 1 2) (regs [(1, 0x04), (2, 0x04)])) = some (0x00, 0, 0x202) := by decide

/-- Vectors S4, AL14 to AL17. -/
theorem test_shr :
    after (xfp 1) (exec (.shr 1 2) (regs [(2, 0x03)])) = some (0x01, 1, 0x202) ∧
    after (xfp 1) (exec (.shr 1 2) (regs [(2, 0x80)])) = some (0x40, 0, 0x202) ∧
    after (xfp 1) (exec (.shr 1 2) (regs [(1, 0xFF), (2, 0x02)])) = some (0x01, 0, 0x202) ∧
    after (xfp 15) (exec (.shr 15 1) (regs [(1, 2)])) = some (0, 0, 0x202) ∧
    after (xfp 15) (exec (.shr 15 1) (resultLast (regs [(1, 2)]))) = some (1, 1, 0x202) := by decide

/-- Vectors AL18 to AL20. -/
theorem test_shl :
    after (xfp 1) (exec (.shl 1 2) (regs [(2, 0x81)])) = some (0x02, 1, 0x202) ∧
    after (xfp 1) (exec (.shl 1 2) (regs [(2, 0x40)])) = some (0x80, 0, 0x202) ∧
    after (xfp 1) (exec (.shl 1 15) (regs [(15, 0x81)])) = some (0x02, 1, 0x202) := by decide

/-- Vectors AL29, AL30, AL28: whatever byte the oracle answers, only the bits under the mask come through. -/
theorem test_rnd :
    after (fun t => t.reg 1) (exec (.rnd 1 0x00) State.reset) = some 0x00 ∧
    after (fun t => t.reg 1) (exec (.rnd 1 0xFF) State.reset) = some (Config.draw8 0) ∧
    after (fun t => (t.reg 1 &&& 0xF0, t.drawCount)) (exec (.rnd 1 0x0F) State.reset) = some (0x00, 1) := by
  refine ⟨?_, ?_, ?_⟩
  · show some (Config.draw8 0 &&& 0x00) = some 0x00
    simp
  · show some (Config.draw8 0 &&& 0xFF) = some (Config.draw8 0)
    exact congrArg some BitVec.and_allOnes
  · show some (Config.draw8 0 &&& 0x0F &&& 0xF0, 1) = some (0x00, 1)
    simp [BitVec.and_assoc]

/-! ## Index register and memory -/

/-- Vectors IM1 to IM5. -/
theorem test_index :
    after State.I (exec (.ldI 0x2F0) State.reset) = some 0x02F0 ∧
    after State.I (exec (.addI 1) { regs [(1, 1)] with I := 0x0FFF }) = some 0x1000 ∧
    after State.I (exec (.addI 1) { regs [(1, 2)] with I := 0xFFFF }) = some 0x0001 ∧
    after State.I (exec (.ldF 4) (regs [(4, 0x0A)])) = some 0x0032 ∧
    after State.I (exec (.ldF 4) (regs [(4, 0xFF)])) = some 0x04FB := by decide

/-- Vectors S7 and IM9. -/
theorem test_decimal :
    after (fun t => (t.bytesAt 0x300 3, t.I)) (exec (.ldB 0) { regs [(0, 123)] with I := 0x300 }) =
      some ([1, 2, 3], 0x300) ∧
    after (fun t => (t.bytesAt 0x300 3, t.I)) (exec (.ldB 0) { regs [(0, 9)] with I := 0x300 }) =
      some ([0, 0, 9], 0x300) ∧
    after (fun t => (t.mode, t.byteAt 0xFFE)) (exec (.ldB 0) { regs [(0, 1)] with I := 0x0FFE }) =
      some (hazard (.memoryRange 0x1000), 0) := by decide

/-- Vectors S5, IM12, IM13. -/
theorem test_store_regs :
    after (fun t => (t.bytesAt 0x300 6, t.I))
      (exec (.storeRegs 4) { regs [(0, 1), (1, 2), (2, 3), (3, 4), (4, 5), (5, 6)] with I := 0x300 }) =
      some ([1, 2, 3, 4, 5, 0], 0x305) ∧
    after (fun t => (t.mode, t.I, t.mem)) (exec (.storeRegs 4) { regs [(0, 1)] with I := 0x0FFC }) =
      some (hazard (.memoryRange 0x1000), 0x0FFC, []) ∧
    after (fun t => (t.mode, t.I, t.mem)) (exec (.storeRegs 3) { regs [(0, 1)] with I := 0x0FFC }) =
      some (.running, 0x1000, [(0xFFC, 1)]) := by decide

/-- Vectors S6, IM14. -/
theorem test_load_regs :
    after (fun t => (t.reg 0, t.reg 1, t.reg 2, t.I))
      (exec (.loadRegs 1) { bytes 0x300 [1, 2, 3] State.reset with I := 0x300 }) = some (1, 2, 0, 0x302) ∧
    after State.mode (exec (.loadRegs 0) { State.reset with I := 0x1000 }) =
      some (hazard (.memoryRange 0x1000)) := by decide

/-- Storing what an unlisted address reads as removes the cell (log 10). -/
theorem test_memory_canonical :
    (bytes 0x300 [0] (bytes 0x300 [7] State.reset)).mem = [] ∧ (bytes 0 [0xF0] State.reset).mem = [] ∧
    (bytes 0x301 [5] (bytes 0x300 [7] State.reset)).mem = [(0x300, 7), (0x301, 5)] := by decide

/-! ## Display -/

/-- Vector S8, the collision-free clipped sprite: bytes 239, 247, 255 and 7 of the bitmap, VF and dirty. -/
theorem test_drw_clips :
    after (fun t => (t.fb[239], t.fb[247], t.fb[255], t.fb[7], t.reg 15, t.dirty))
      (exec (.drw 1 2 6)
        { bytes 0x300 [0xFF, 0xC1, 0x99, 0x9B, 0x85, 0xFF] (regs [(1, 0x3C), (2, 0x1D)]) with I := 0x300 }) =
      some (0x0F, 0x0C, 0x09, 0x00, 0, true) := by decide +kernel

/-- Vector DP8: the second sprite hits bit 0 of byte 0. -/
theorem test_drw_collides :
    after (fun t => (t.fb[0], t.fb[1], t.reg 15))
      (exec (.drw 1 2 1)
        { bytes 0x300 [0x18] (regs [(1, 4)]) with I := 0x300, fb := State.reset.fb.set 0 0x0F }) =
      some (0x0E, 0x80, 1) := by decide +kernel

/-- Vectors DP3, DP2, DP6 on the engine alone. -/
theorem test_draw_engine :
    ((draw [0xFF] 67 33 State.reset.fb).1[8], (draw [0xFF] 67 33 State.reset.fb).1[9]) = (0x1F, 0xE0) ∧
    ((draw [0xFF] 63 0 State.reset.fb).1[7], (draw [0xFF] 63 0 State.reset.fb).1[8]) = (0x01, 0x00) ∧
    ((draw [0xAA, 0x55] 0 31 State.reset.fb).1[248], (draw [0xAA, 0x55] 0 31 State.reset.fb).1[0]) = (0xAA, 0x00) := by
  decide +kernel

/-- Vectors DP5, DP9, DP10. -/
theorem test_drw_edges :
    after (fun t => (t.mode, t.reg 15, t.dirty)) (exec (.drw 1 2 0) { regs [(15, 9)] with I := 0xFFFF }) =
      some (.running, 0, true) ∧
    after (fun t => (t.fb[1], t.reg 15))
      (exec (.drw 15 1 1) { bytes 0x300 [0x80] (regs [(15, 8)]) with I := 0x300 }) = some (0x80, 0) ∧
    after (fun t => (t.mode, t.dirty)) (exec (.drw 1 2 3) { State.reset with I := 0x0FFE }) =
      some (hazard (.memoryRange 0x1000), false) := by decide +kernel

/-- Vector S9. -/
theorem test_cls :
    after (fun t => (t.fb[0], t.dirty, t.PC)) (exec .cls { State.reset with fb := State.reset.fb.set 0 0xFF }) =
      some (0, true, 0x202) := by decide +kernel

/-! ## Timers and keys -/

/-- Vectors TK1 to TK3. -/
theorem test_timer_loads :
    after (fun t => (t.reg 5, t.DT)) (exec (.ldVxDT 5) { State.reset with DT := 0x3C }) = some (0x3C, 0x3C) ∧
    after (fun t => (t.DT, t.ST)) (exec (.ldDTVx 5) (regs [(5, 0x3C)])) = some (0x3C, 0) ∧
    after (fun t => (t.DT, t.ST)) (exec (.ldSTVx 5) (regs [(5, 0x05)])) = some (0, 0x05) := by decide

/-- Vectors TK4, TK5. -/
theorem test_tick :
    after (fun t => (t.DT, t.ST)) (serve .timer { State.reset with DT := 1, ST := 0 }) = some (0, 0) ∧
    after (fun t => (t.DT, t.ST)) (serve .timer { State.reset with DT := 0, ST := 2 }) = some (0, 1) := by decide

/-- Vectors TK6 to TK8. -/
theorem test_key_skips :
    after State.PC (exec (.skp 10) { regs [(10, 0x0F)] with keys := 0x8000 }) = some 0x204 ∧
    after State.PC (exec (.skp 10) { regs [(10, 0x0E)] with keys := 0x8000 }) = some 0x202 ∧
    after State.PC (exec (.sknp 10) (regs [(10, 3)])) = some 0x204 ∧
    after State.PC (exec (.sknp 10) { regs [(10, 3)] with keys := 0x0008 }) = some 0x202 := by decide

/-- Vectors TK9 to TK11. -/
theorem test_key_index_policy :
    after (fun t => (t.mode, t.PC)) (exec (.skp 10) (regs [(10, 0x10)])) = some (hazard (.keyIndex 0x10), 0x200) ∧
    after State.PC (exec (.skp 10) { policy .lowNibble (regs [(10, 0x13)]) with keys := 0x0008 }) = some 0x204 ∧
    after State.PC (exec (.sknp 10) (policy .notPressed (regs [(10, 0x13)]))) = some 0x204 := by decide

/-- Vectors TK12 to TK15. -/
theorem test_key_wait :
    after (fun t => (t.reg 5, t.PC)) (exec (.ldVxK 5) { State.reset with prevKeys := 0x0006, keys := 0x0004 }) =
      some (1, 0x202) ∧
    after (fun t => (t.reg 5, t.PC)) (exec (.ldVxK 5) { regs [(5, 9)] with prevKeys := 0x0003 }) = some (0, 0x202) ∧
    after (fun t => (t.PC, t.prevKeys)) (exec (.ldVxK 5) { State.reset with keys := 0xFFFF }) = some (0x200, 0xFFFF) ∧
    after State.PC (exec (.ldVxK 5) { State.reset with prevKeys := 1, keys := 1 }) = some 0x200 := by decide

/-! ## Faults, launch and the scheduler -/

/-- Vector FA1. -/
theorem test_illegal_word :
    after (fun t => (t.mode, t.PC, t.prevKeys)) (cycle { bytes 0x200 [0xFF, 0xFF] State.reset with keys := 1 }) =
      some (.faulted (.unrecognizedOpcode 0xFFFF), 0x200, 0) := by decide

/-- Vectors FA2, FA3. -/
theorem test_fetch_past_memory :
    after State.mode (cycle { State.reset with PC := 0x10FE }) = some (hazard (.memoryRange 0x10FE)) ∧
    after State.mode (cycle { State.reset with PC := 0x0FFF }) = some (hazard (.memoryRange 0x1000)) := by decide

/-- Vectors CF20, CF21: an odd PC and the last word of memory. -/
theorem test_fetch_anywhere :
    after State.PC (cycle (bytes 0x201 [0x12, 0x34] { State.reset with PC := 0x201 })) = some 0x234 ∧
    after State.PC (cycle (bytes 0xFFE [0x1F, 0xFE] { State.reset with PC := 0xFFE })) = some 0xFFE := by decide

/-- Vectors RS1, RS4, RS5: what a launch gives, read as the fault of a long image or the bytes around a short one. -/
theorem test_launch :
    launch Config.default (List.replicate 3585 0) = .romTooLarge ∧
    (match launch Config.default [0x12, 0x34, 0x56] with
     | .session s => some (s.bytesAt 0x200 4, s.bytesAt 0 5)
     | .romTooLarge => none) = some ([0x12, 0x34, 0x56, 0x00], [0xF0, 0x90, 0x90, 0x90, 0xF0]) := by decide +kernel

/-- Vectors SC1, SC2, SC6 (and D25: the Step behind Close is discarded), SC7. -/
theorem test_commands :
    after State.mode (serve .command { State.reset with queue := [.pause] }) = some .paused ∧
    after (fun t => (t.PC, t.mode)) (serve .command { State.reset with queue := [.step] }) = some (0x200, .running) ∧
    after (fun t => (t.mode, t.queue)) (serve .command { State.reset with queue := [.close, .step] }) =
      some (.closed, []) ∧
    after (fun t => (t.keys, t.prevKeys)) (serve .command { State.reset with queue := [.setKeyMap 0x0010] }) =
      some (0x0010, 0) := by decide

/-- Vectors SC3 to SC5. -/
theorem test_paused :
    after (fun t => (t.reg 1, t.PC, t.mode))
      (serve .command { bytes 0x200 [0x61, 0x05] State.reset with mode := .paused, queue := [.step] }) =
      some (5, 0x202, .paused) ∧
    after (fun t => (t.PC, t.DT)) (serve .instruction { State.reset with mode := .paused, DT := 5 }) = some (0x200, 5) ∧
    after State.DT (serve .timer { State.reset with mode := .paused, DT := 5 }) = some 4 := by decide

/-- Vectors FA4, SC8 and S11: after the end only a snapshot happens. -/
theorem test_ended :
    step { State.reset with mode := .closed, queue := [.step], agenda := [.command, .writeKeys 1] } =
      .fault .sessionClosed ∧
    after (fun t => (t.mode, t.keys, t.agenda))
      (step { State.reset with mode := .closed, agenda := [.writeKeys 1, .snapshot] }) =
      some (.closed, 0, [.writeKeys 1]) := ⟨rfl, rfl⟩

/-- A placed word is what the very next step runs, also where PC stood past memory. -/
theorem test_withFetchWord :
    after (xfp 10) (step (State.reset.withFetchWord 16 0x6A2F)) = some (0x2F, 0, 0x202) ∧
    after (xfp 10) (step ({ State.reset with PC := 0xFFFF, mode := .closed }.withFetchWord 16 0x6A2F)) =
      some (0x2F, 0, 0x202) := by decide

/-- Two instruction events run the first two words of a launched image in turn. -/
theorem test_run_two :
    (match Sys2Proof.core.run 2
        ((bytes 0x200 [0x61, 0x05, 0x71, 0x03] State.reset).withInstructionEvents 2) with
     | .next t => some (State.reg t 1, State.PC t)
     | .fault _ => none
     | .refused _ => none) = some (0x08, 0x204) := by decide

/-! ## States and operands that meet the hypotheses of the statements, clause by clause -/

/-- `o` is a next state that `p` holds of. -/
def Goes (o : Host.Outcome State Fault Refusal) (p : State → Prop) : Prop := ∃ t, o = .next t ∧ p t

theorem test_meets_DecodeOfEncode : Instr.wf (.sys 0xFFF) = true ∧ Instr.wf (.drw 15 15 15) = true := by decide

theorem test_meets_EncodeOfDecoded : decode 0xD126 = some (.drw 1 2 6) := by decide

theorem test_meets_ClsAndRet :
    (∀ j : Fin 35, j ≤ 1 → ∃ w : Word, (opcodeTable[j.val]?.any fun r => r.holds w) = true ∧
      (opcodeTable[2]?.any fun r => r.holds w) = true) := by
  intro j hj
  have : j = 0 ∨ j = 1 := by omega
  rcases this with rfl | rfl
  · exact ⟨0x00E0, by decide⟩
  · exact ⟨0x00EE, by decide⟩

theorem test_meets_Reset_font_edge : (State.reset).byteAt 79 = 0x80 ∧ (State.reset).byteAt 80 = 0 := by decide

theorem test_meets_Launch :
    (List.replicate 3584 (0 : Byte)).length ≤ 3584 ∧ 3584 < (List.replicate 3585 (0 : Byte)).length ∧
    (List.replicate 3584 (0 : Byte))[3583]? = some 0 :=
  ⟨by rw [List.length_replicate], by rw [List.length_replicate]; decide, by rw [List.getElem?_replicate]; rfl⟩

theorem test_meets_Call :
    ({ State.reset with SP := 31 } : State).SP.val < 32 ∧ ({ State.reset with SP := 32 } : State).SP.val = 32 := by
  decide

theorem test_meets_Return :
    0 < ({ State.reset with SP := 1 } : State).SP.val ∧ State.reset.SP.val = 0 := by decide

theorem test_meets_result_and_flag_orders :
    State.reset.cfg.vfWriteOrder = .flagLast ∧ (resultLast State.reset).cfg.vfWriteOrder = .resultLast := by decide

theorem test_meets_Decimal :
    memOk State.reset ∧ ({ State.reset with I := 0x0FFD } : State).indexAddr + 2 < 4096 ∧
    4096 ≤ ({ State.reset with I := 0x0FFE } : State).indexAddr + 2 := by decide

theorem test_meets_Dump_Load_and_Undo :
    memOk ({ State.reset with I := 0x0FFC } : State) ∧
    ({ State.reset with I := 0x0FFC } : State).indexAddr + (3 : Reg).val < 4096 ∧
    4096 ≤ ({ State.reset with I := 0x0FFC } : State).indexAddr + (4 : Reg).val := by decide

theorem test_meets_StoreIsSeen :
    memOk ({ State.reset with PC := 0x0FFC, I := 0x0FFE } : State) ∧
    ({ State.reset with PC := 0x0FFC, I := 0x0FFE } : State).indexAddr = (0x0FFC : Word).toNat + 2 ∧
    1 ≤ (1 : Reg).val ∧ ({ State.reset with PC := 0x0FFC, I := 0x0FFE } : State).indexAddr + (1 : Reg).val < 4096 ∧
    ({ State.reset with PC := 0x0FFB, I := 0x0FFD } : State).indexAddr = (0x0FFB : Word).toNat + 2 ∧
    ({ State.reset with PC := 0x0FFB, I := 0x0FFD } : State).indexAddr + 2 < 4096 := by decide

theorem test_meets_Draw :
    ({ State.reset with I := 0x0FFD } : State).indexAddr + (3 : Nibble).toNat ≤ 4096 ∧ (3 : Nibble) ≠ 0 ∧
    4096 < ({ State.reset with I := 0x0FFE } : State).indexAddr + (3 : Nibble).toNat := by decide

theorem test_meets_KeySkips :
    ((regs [(10, 15)]).reg 10).toNat < 16 ∧ 16 ≤ ((regs [(10, 16)]).reg 10).toNat ∧
    (regs [(10, 16)]).cfg.keyIndexPolicy = .fault ∧
    (policy .lowNibble (regs [(10, 16)])).cfg.keyIndexPolicy = .lowNibble ∧
    16 ≤ ((policy .notPressed (regs [(10, 16)])).reg 10).toNat ∧
    (policy .notPressed (regs [(10, 16)])).cfg.keyIndexPolicy = .notPressed := by decide

/-- Key 15 is the only one released, and no key is released. -/
theorem test_meets_KeyWait :
    (0x8001 : Word).getLsbD 15 = true ∧ (0x0001 : Word).getLsbD 15 = false ∧
    (∀ j, j < 15 → (0x8001 : Word).getLsbD j = true → (0x0001 : Word).getLsbD j = true) ∧
    (∀ k, k < 16 → (0x8001 : Word).getLsbD k = true → (0x8003 : Word).getLsbD k = true) := by decide

theorem test_meets_FetchPast :
    4095 ≤ ({ State.reset with PC := 0x0FFF } : State).PC.toNat := by decide

theorem test_meets_IllegalWord :
    (0x0FFE : Word).toNat + 1 < 4096 ∧
    decode ((bytes 0xFFE [0x51, 0x21] State.reset).byteAt 0xFFE ++ (bytes 0xFFE [0x51, 0x21] State.reset).byteAt 0xFFF) =
      none := by decide

theorem test_meets_FaultingCycle :
    ({ State.reset with PC := 0x0FFF } : State).mode.ended = false ∧
    Goes (cycle { State.reset with PC := 0x0FFF }) (fun t => t.mode = hazard (.memoryRange 0x1000)) :=
  ⟨rfl, _, rfl, rfl⟩

/-- Each of the four causes is met in a live session: a full stack, an empty one, memory, a key index. -/
theorem test_meets_EachFault :
    State.reset.mode.ended = false ∧
    Goes (exec (.call 0x300) { State.reset with SP := 32 }) (fun t => t.mode = hazard .stackOverflow) ∧
    Goes (exec .ret State.reset) (fun t => t.mode = hazard .stackUnderflow) ∧
    Goes (exec (.drw 0 0 1) { State.reset with I := 0x1000 }) (fun t => t.mode = hazard (.memoryRange 0x1000)) ∧
    Goes (exec (.ldB 0) { State.reset with I := 0x0FFE }) (fun t => t.mode = hazard (.memoryRange 0x1000)) ∧
    Goes (exec (.storeRegs 1) { State.reset with I := 0x0FFF }) (fun t => t.mode = hazard (.memoryRange 0x1000)) ∧
    Goes (exec (.sknp 1) (regs [(1, 16)])) (fun t => t.mode = hazard (.keyIndex 16)) :=
  ⟨rfl, ⟨_, rfl, rfl⟩, ⟨_, rfl, rfl⟩, ⟨_, rfl, rfl⟩, ⟨_, rfl, rfl⟩, ⟨_, rfl, rfl⟩, ⟨_, rfl, rfl⟩⟩

/-- A register written as a destination, as VF, and in a load's range. -/
theorem test_meets_OnlyListed_registers :
    Goes (exec (.ldByte 3 7) State.reset) (fun t => t.reg 3 ≠ State.reset.reg 3) ∧
    Goes (exec (.addReg 1 2) (regs [(1, 0xFF), (2, 1)])) (fun t => t.reg 15 ≠ (regs [(1, 0xFF), (2, 1)]).reg 15) ∧
    Goes (exec (.loadRegs 2) State.reset) (fun t => t.reg 2 ≠ State.reset.reg 2) :=
  ⟨⟨_, rfl, by decide⟩, ⟨_, rfl, by decide⟩, ⟨_, rfl, by decide⟩⟩

theorem test_meets_OnlyListed_rest :
    Goes (exec (.ldI 1) State.reset) (fun t => t.I ≠ State.reset.I) ∧
    Goes (exec (.call 0x300) State.reset) (fun t => t.SP ≠ State.reset.SP ∧ t.stack ≠ State.reset.stack) ∧
    Goes (exec (.ldDTVx 0) (regs [(0, 1)])) (fun t => t.DT ≠ (regs [(0, 1)]).DT) ∧
    Goes (exec (.ldSTVx 0) (regs [(0, 1)])) (fun t => t.ST ≠ (regs [(0, 1)]).ST) ∧
    Goes (exec (.storeRegs 0) State.reset) (fun t => t.mem ≠ State.reset.mem) ∧
    Goes (exec .cls State.reset) (fun t => t.dirty ≠ State.reset.dirty) :=
  ⟨⟨_, rfl, by decide⟩, ⟨_, rfl, by decide, by decide⟩, ⟨_, rfl, by decide⟩, ⟨_, rfl, by decide⟩,
    ⟨_, rfl, by decide⟩, ⟨_, rfl, by decide⟩⟩

/-- Also for NoInstructionTouchesHostState and the two statements on what an instruction reads. -/
theorem test_meets_AdvancesPc :
    State.reset.mode.ended = false ∧ Goes (exec (.seByte 0 0) State.reset) (fun t => t.mode.ended = false) ∧
    Goes (exec (.ldSTVx 0) State.reset) (fun t => t.mode.ended = false) ∧
    Goes (exec .cls State.reset) (fun t => t.mode.ended = false) :=
  ⟨rfl, ⟨_, rfl, rfl⟩, ⟨_, rfl, rfl⟩, ⟨_, rfl, rfl⟩⟩

theorem test_meets_PrevKeys :
    Goes (cycle State.reset) (fun t => t.mode.ended = false) ∧
    Goes (serve (.writeKeys 1) State.reset) (fun t => t.keys = 1) ∧
    Goes (serveCommand (.setKeyMap 1) State.reset) (fun t => t.keys = 1) :=
  ⟨⟨_, rfl, rfl⟩, ⟨_, rfl, rfl⟩, ⟨_, rfl, rfl⟩⟩

/-- A running session with an instruction event lined up, a paused one with a Step queued, a session with no agenda. -/
theorem test_meets_StepRuns :
    State.reset.PC.toNat + 1 < 4096 ∧
    decode (State.reset.byteAt State.reset.PC.toNat ++ State.reset.byteAt (State.reset.PC.toNat + 1)) = some (.sys 0) ∧
    State.reset.mode = .running ∧ State.reset.agenda = [] ∧
    (State.reset.withInstructionEvents 1).agenda = .instruction :: [] ∧
    eventReady (State.reset.withInstructionEvents 1) .instruction = true ∧
    ({ State.reset with mode := .paused, agenda := [.command], queue := [.step] } : State).queue = .step :: [] ∧
    eventReady { State.reset with mode := .paused, agenda := [.command], queue := [.step] } .command = true := by decide

theorem test_meets_PlacedWord :
    memOk State.reset ∧ decode 0xD126 = some (.drw 1 2 6) ∧ (0x0FFE : Word).toNat + 1 < 4096 := by decide

/-- Each command at the head of a queue, in each mode the clauses name; a paused session for the paused statements. -/
theorem test_meets_Commands_and_Paused :
    State.reset.mode = .running ∧ ({ State.reset with mode := .paused, queue := [.pause] } : State).mode = .paused ∧
    ({ State.reset with queue := [.pause, .close] } : State).queue = .pause :: [.close] ∧
    ({ State.reset with queue := [.setKeyMap 3] } : State).queue = .setKeyMap 3 :: [] ∧
    ({ State.reset with queue := [.close, .step] } : State).queue = .close :: [.step] ∧
    Goes (serve .command { State.reset with mode := .paused, queue := [.step] }) (fun t => t.mode = .paused) ∧
    Goes (serve .command { State.reset with mode := .paused, queue := [.step], PC := 0x0FFF })
      (fun t => t.mode = hazard (.memoryRange 0x1000)) :=
  ⟨rfl, rfl, rfl, rfl, rfl, ⟨_, rfl, rfl⟩, ⟨_, rfl, rfl⟩⟩

/-- A bound of one command, with room and without, and no bound. -/
theorem test_meets_HostMoves :
    State.reset.mode.ended = false ∧ eventReady { State.reset with queue := [.step] } (.enqueue .pause) = true ∧
    eventReady { State.reset with cfg := { Config.default with queueBound := some 1 } } (.enqueue .pause) = true ∧
    eventReady { State.reset with cfg := { Config.default with queueBound := some 1 }, queue := [.step] }
      (.enqueue .pause) = false := by decide

/-- Also for KeysChangeOnlyByTheHost: a direct write, and a served SetKeyMap. -/
theorem test_meets_EveryStepServesOne :
    Goes (step { State.reset with agenda := [.writeKeys 3] }) (fun t => t.keys ≠ 0) ∧
    Goes (step { State.reset with agenda := [.command], queue := [.setKeyMap 3] }) (fun t => t.keys ≠ 0) :=
  ⟨⟨_, rfl, by decide⟩, ⟨_, rfl, by decide⟩⟩

theorem test_meets_EndedSession :
    ({ State.reset with mode := .closed } : State).mode.ended = true ∧
    Event.snapshot ∉ ({ State.reset with mode := .closed } : State).agenda ∧
    Goes (step { State.reset with mode := .closed, dirty := true, agenda := [.snapshot] }) (fun t => t.dirty = false) ∧
    step { State.reset with mode := hazard .stackUnderflow } =
      .fault (.sessionFaulted (.boundsHazard .stackUnderflow)) :=
  ⟨rfl, by decide, ⟨_, rfl, rfl⟩, rfl⟩

theorem test_meets_Parked :
    parked (bytes 0xFFE [0x1F, 0xFE] { State.reset with PC := 0xFFE, agenda := [.instruction] }) = true ∧
    parked (bytes 0x200 [0x12, 0x00] State.reset) = true ∧ parked State.reset = false := by decide

/-- The invariants hold of a state that then steps: canonical memory with a cell, PC at its bound, a full queue. -/
theorem test_meets_Invariants :
    memOk { bytes 0x300 [7] State.reset with agenda := [.instruction] } ∧
    pcBounded { State.reset with PC := 0x10FE, agenda := [.instruction] } ∧
    queueBounded { State.reset with cfg := { Config.default with queueBound := some 1 }, queue := [.step],
                                    agenda := [.command] } = true ∧
    Goes (step { bytes 0x300 [7] State.reset with agenda := [.instruction] }) (fun t => t.PC = 0x202) ∧
    Goes (step { State.reset with PC := 0x10FE, agenda := [.instruction] })
      (fun t => t.mode = hazard (.memoryRange 0x10FE)) ∧
    Goes (step { State.reset with cfg := { Config.default with queueBound := some 1 }, queue := [.step],
                                  agenda := [.command] }) (fun t => t.queue = []) :=
  ⟨by decide, by decide, by decide, ⟨_, rfl, by decide⟩, ⟨_, rfl, by decide⟩, ⟨_, rfl, rfl⟩⟩

end Sys2Proof.Tests
end

