-- ==== Sys2Proof/Proofs/Control.lean ====
section
/-! PROOFS. Family 40_control.md: the next-PC values, what a conditional skip answers, and the four register skips. -/

namespace Sys2Proof.Machine

/-! ## The end of a cycle -/

/-- The sum reduced once from a natural number is the 16-bit sum (40_control.md R100). -/
@[simp] theorem State.nextPC_eq (s : State) : s.nextPC = s.PC + 2 := by
  simp [State.nextPC, trunc16, BitVec.ofNat_add]

/-- The sum reduced once from a natural number is the 16-bit sum (40_control.md R110). -/
@[simp] theorem State.skipPC_eq (s : State) : s.skipPC = s.PC + 4 := by
  simp [State.skipPC, trunc16, BitVec.ofNat_add]

/-- The commit of a cycle writes no register and no byte of memory. -/
theorem wroteRegs_retire (s : State) (next : Word) (dest : Reg → Bool) :
    Safety.wroteRegs s (s.retire next) next dest :=
  ⟨rfl, fun r _ => s.reg_retire next r, s.byteAt_retire next⟩

/-! ## Conditional skips -/

/-- A skip only commits the cycle, at PC + 4 where its condition holds and at PC + 2 where it does not
(40_control.md R110). -/
theorem skipIf_eq (c : Bool) (s : State) : skipIf c s = .next (s.retire (if c then s.PC + 4 else s.PC + 2)) := by
  simp [skipIf]

/-- The next-PC and the frame of a skip whose flag decides the proposition `p`. -/
theorem skipIf_wroteRegs (s : State) {c : Bool} {p : Prop} [Decidable p] (h : c = true ↔ p) :
    ∃ t, skipIf c s = .next t ∧
      Safety.wroteRegs s t (if p then s.PC + 4 else s.PC + 2) (fun _ => false) := by
  refine ⟨_, skipIf_eq c s, ?_⟩
  simp only [h]
  exact wroteRegs_retire s _ _

theorem exec_seByte (x : Reg) (kk : Byte) (s : State) : exec (.seByte x kk) s = skipIf (s.reg x == kk) s := rfl
theorem exec_sneByte (x : Reg) (kk : Byte) (s : State) : exec (.sneByte x kk) s = skipIf (s.reg x != kk) s := rfl
theorem exec_seReg (x y : Reg) (s : State) : exec (.seReg x y) s = skipIf (s.reg x == s.reg y) s := rfl
theorem exec_sneReg (x y : Reg) (s : State) : exec (.sneReg x y) s = skipIf (s.reg x != s.reg y) s := rfl

/-- Settles O14: each register skip is `skipIf` of its comparison; for SNE the branches of the stated `if` trade places,
since its condition is the negated one. -/
theorem skipsFollowTheirComparison : Obligations.SkipsFollowTheirComparison := by
  intro x y kk s
  refine ⟨?seByte, ?sneByte, ?seReg, ?sneReg⟩
  case seByte =>
    rw [exec_seByte]
    exact skipIf_wroteRegs s beq_iff_eq
  case sneByte =>
    rw [exec_sneByte, ← ite_not]
    exact skipIf_wroteRegs s bne_iff_ne
  case seReg =>
    rw [exec_seReg]
    exact skipIf_wroteRegs s beq_iff_eq
  case sneReg =>
    rw [exec_sneReg, ← ite_not]
    exact skipIf_wroteRegs s bne_iff_ne

end Sys2Proof.Machine
end

