-- ==== Sys2Proof/Proofs/Alu.lean ====
section
/-! PROOFS. Family 41_alu.md: the ALU results and flags as operations on bytes, what a cycle that writes one register
or a result and a flag changes, and the loads, the logic, the sums, the differences and the shifts. -/

namespace Sys2Proof.Machine

/-! ## Results and flags -/

theorem flagByte_decide (p : Prop) [Decidable p] : flagByte (decide p) = if p then 1 else 0 := by
  simp [flagByte]

theorem carryOf_eq (a b : Byte) : carryOf a b = if a.toNat + b.toNat > 255 then 1 else 0 :=
  flagByte_decide (a.toNat + b.toNat > 255)

@[simp] theorem sumOf_eq (a b : Byte) : sumOf a b = a + b := by
  simp [sumOf, trunc8, BitVec.ofNat_add]

/-- `trunc8(a + 256 - b)` never borrows, and 256 is 0 modulo 256 (41_alu.md R128, R130). -/
@[simp] theorem differenceOf_eq (a b : Byte) : differenceOf a b = a - b := by
  apply BitVec.eq_of_toNat_eq
  have hb := b.isLt
  simp only [differenceOf, trunc8, BitVec.toNat_ofNat, BitVec.toNat_sub]
  omega

theorem notBorrowOf_eq (a b : Byte) : notBorrowOf a b = if b < a then 1 else 0 :=
  flagByte_decide (a.toNat > b.toNat)

@[simp] theorem shiftedRight_eq (b : Byte) : shiftedRight b = b >>> 1 := by
  apply BitVec.eq_of_toNat_eq
  have hb := b.isLt
  simp only [shiftedRight, trunc8, BitVec.toNat_ofNat, BitVec.toNat_ushiftRight, Nat.shiftRight_eq_div_pow]
  omega

@[simp] theorem shiftedLeft_eq (b : Byte) : shiftedLeft b = b <<< 1 := by
  apply BitVec.eq_of_toNat_eq
  simp [shiftedLeft, trunc8]

/-- The bit taken out by a shift and a mask is bit `k`, as a flag byte (41_alu.md R129, R131). -/
theorem trunc8_shiftRight_and_one (b : Byte) (k : Nat) :
    trunc8 ((b.toNat >>> k) &&& 1) = if b.getLsbD k = true then 1 else 0 := by
  rw [Nat.and_one_is_mod, Nat.shiftRight_eq_div_pow, ← Nat.toNat_testBit, BitVec.testBit_toNat]
  cases b.getLsbD k <;> rfl

theorem lowBitOf_eq (b : Byte) : lowBitOf b = if b.getLsbD 0 = true then 1 else 0 :=
  trunc8_shiftRight_and_one b 0

theorem highBitOf_eq (b : Byte) : highBitOf b = if b.getLsbD 7 = true then 1 else 0 :=
  trunc8_shiftRight_and_one b 7

/-! ## Completed register writes -/

theorem complete_eq (s u : State) : complete s u = .next (u.retire (s.PC + 2)) := by
  rw [complete, State.nextPC_eq]

/-- A state that differs from `s` in the registers `dest` marks alone is, once committed, what `wroteRegs` describes. -/
theorem wroteRegs_retire_of_onlyV {s u : State} {next : Word} {dest : Reg → Bool} (hV : u = { s with V := u.V })
    (hreg : ∀ r, dest r = false → u.reg r = s.reg r) : Safety.wroteRegs s (u.retire next) next dest := by
  have hcommit : u.retire next = { s with V := u.V, PC := next, prevKeys := s.keys } := by rw [hV]; rfl
  have hbytes : ∀ a, u.byteAt a = s.byteAt a := by rw [hV]; exact fun _ => rfl
  exact ⟨hcommit, hreg, hbytes⟩

/-- A cycle that completes with `V[x] <- b` writes that register alone. -/
theorem complete_setReg (s : State) (x : Reg) (b : Byte) :
    ∃ t, complete s (s.setReg x b) = .next t ∧ t.reg x = b ∧
      Safety.wroteRegs s t (s.PC + 2) (fun r => r == x) := by
  refine ⟨_, complete_eq s _, State.reg_setReg_same s x b, wroteRegs_retire_of_onlyV rfl ?_⟩
  exact fun r hr => State.reg_setReg_other s b (beq_eq_false_iff_ne.1 hr)

/-- A cycle that completes with a result and a flag: at x = 15 the order parameter says which of the two VF holds
(41_alu.md R120, decision D4). -/
theorem complete_writeResultAndFlag (s : State) (x : Reg) (v f : Byte) :
    ∃ t, complete s (s.writeResultAndFlag x v f) = .next t ∧ Safety.wroteResultAndFlag s t x v f := by
  refine ⟨_, complete_eq s _, ?frame, ?apart, ?flagLast, ?resultLast⟩
  case frame =>
    refine wroteRegs_retire_of_onlyV (s.writeResultAndFlag_eq x v f) fun r hr => ?_
    obtain ⟨hx, hflag⟩ : r ≠ x ∧ r ≠ flagReg := by simpa [flagReg] using hr
    simp [State.reg_writeResultAndFlag, hx, hflag]
  case apart =>
    intro hx
    have hflag : x ≠ flagReg := hx
    exact ⟨by simp [State.reg_writeResultAndFlag, hflag], by simp [State.reg_writeResultAndFlag, flagReg, hx]⟩
  case flagLast =>
    intro _ ho
    simp [State.reg_writeResultAndFlag, flagReg, ho]
  case resultLast =>
    intro hx ho
    simp [State.reg_writeResultAndFlag, flagReg, hx, ho]

/-! ## The meaning of each ALU instruction -/

theorem exec_ldByte (x : Reg) (kk : Byte) (s : State) : exec (.ldByte x kk) s = complete s (s.setReg x kk) := rfl
theorem exec_ldReg (x y : Reg) (s : State) : exec (.ldReg x y) s = complete s (s.setReg x (s.reg y)) := rfl

theorem exec_addByte (x : Reg) (kk : Byte) (s : State) :
    exec (.addByte x kk) s = complete s (s.setReg x (s.reg x + kk)) := by
  rw [← sumOf_eq]; rfl

theorem exec_orReg (x y : Reg) (s : State) :
    exec (.orReg x y) s = complete s (s.writeResultAndFlag x (s.reg x ||| s.reg y) 0) := rfl

theorem exec_andReg (x y : Reg) (s : State) :
    exec (.andReg x y) s = complete s (s.writeResultAndFlag x (s.reg x &&& s.reg y) 0) := rfl

theorem exec_xorReg (x y : Reg) (s : State) :
    exec (.xorReg x y) s = complete s (s.writeResultAndFlag x (s.reg x ^^^ s.reg y) 0) := rfl

theorem exec_addReg (x y : Reg) (s : State) :
    exec (.addReg x y) s = complete s (s.writeResultAndFlag x (s.reg x + s.reg y)
      (if (s.reg x).toNat + (s.reg y).toNat > 255 then 1 else 0)) := by
  rw [← sumOf_eq, ← carryOf_eq]; rfl

theorem exec_sub (x y : Reg) (s : State) :
    exec (.sub x y) s =
      complete s (s.writeResultAndFlag x (s.reg x - s.reg y) (if s.reg y < s.reg x then 1 else 0)) := by
  rw [← differenceOf_eq, ← notBorrowOf_eq]; rfl

theorem exec_subn (x y : Reg) (s : State) :
    exec (.subn x y) s =
      complete s (s.writeResultAndFlag x (s.reg y - s.reg x) (if s.reg x < s.reg y then 1 else 0)) := by
  rw [← differenceOf_eq, ← notBorrowOf_eq]; rfl

theorem exec_shr (x y : Reg) (s : State) :
    exec (.shr x y) s = complete s (s.writeResultAndFlag x (s.reg y >>> 1)
      (if (s.reg y).getLsbD 0 = true then 1 else 0)) := by
  rw [← shiftedRight_eq, ← lowBitOf_eq]; rfl

theorem exec_shl (x y : Reg) (s : State) :
    exec (.shl x y) s = complete s (s.writeResultAndFlag x (s.reg y <<< 1)
      (if (s.reg y).getLsbD 7 = true then 1 else 0)) := by
  rw [← shiftedLeft_eq, ← highBitOf_eq]; rfl

/-! ## The statements -/

/-- Settles O15: all three complete with one `setReg`; the sum modulo 256 is the eight-bit sum read as a natural. -/
theorem loadsAndImmediateAddWriteOneRegister : Obligations.LoadsAndImmediateAddWriteOneRegister := by
  intro x y kk s
  refine ⟨?ldByte, ?addByte, ?ldReg⟩
  case ldByte =>
    rw [exec_ldByte]
    exact complete_setReg s x kk
  case addByte =>
    rw [exec_addByte]
    obtain ⟨t, hnext, hx, hframe⟩ := complete_setReg s x (s.reg x + kk)
    exact ⟨t, hnext, hx ▸ BitVec.toNat_add _ _, hframe⟩
  case ldReg =>
    rw [exec_ldReg]
    exact complete_setReg s x (s.reg y)

/-- Settles O16: the three complete with their bitwise result and the flag 0. -/
theorem logicClearsTheFlag : Obligations.LogicClearsTheFlag := by
  intro x y s
  rw [exec_orReg, exec_andReg, exec_xorReg]
  exact ⟨complete_writeResultAndFlag s x _ _, complete_writeResultAndFlag s x _ _,
    complete_writeResultAndFlag s x _ _⟩

/-- Settles O17: ADD completes with the sum and the carry. -/
theorem addSetsTheCarry : Obligations.AddSetsTheCarry := by
  intro x y s
  rw [exec_addReg]
  exact complete_writeResultAndFlag s x _ _

/-- Settles O18: SUB and SUBN complete with the two differences and their strict not-borrow. -/
theorem subtractionsSetNotBorrow : Obligations.SubtractionsSetNotBorrow := by
  intro x y s
  rw [exec_sub, exec_subn]
  exact ⟨complete_writeResultAndFlag s x _ _, complete_writeResultAndFlag s x _ _⟩

/-- Settles O19: SHR and SHL complete with V[y] shifted and its lost bit; V[x] occurs in neither. -/
theorem shiftsReadVyAndKeepTheLostBit : Obligations.ShiftsReadVyAndKeepTheLostBit := by
  intro x y s
  rw [exec_shr, exec_shl]
  exact ⟨complete_writeResultAndFlag s x _ _, complete_writeResultAndFlag s x _ _⟩

end Sys2Proof.Machine
end

