-- ==== Sys2Proof/Proofs/IndexMemory.lean ====
section
/-! PROOFS. Family 42_index_memory.md: the address operands as naturals, what a cycle that writes I alone changes, and
the three instructions that are such a cycle. -/

namespace Sys2Proof.Machine

/-! ## Address operands as naturals -/

@[simp] theorem targetOf_toNat (nnn : Addr) : (targetOf nnn).toNat = nnn.toNat :=
  BitVec.toNat_setWidth_of_le (by decide)

@[simp] theorem State.indexPlus_toNat (s : State) (k : Nat) : (s.indexPlus k).toNat = (s.I.toNat + k) % 65536 :=
  BitVec.toNat_ofNat _ 16

/-- The largest glyph address is 255 · 5, so R142's 16-bit product never wraps. -/
@[simp] theorem glyphAddr_toNat (v : Byte) : (glyphAddr v).toNat = v.toNat * 5 := by
  have hv := v.isLt
  exact Nat.mod_eq_of_lt (by omega)

/-! ## Completed writes of I -/

/-- A cycle that completes with `I <- w` writes I alone; `n` is the value of `w` as a natural. -/
theorem complete_setIndex (s : State) {w : Word} {n : Nat} (hw : w.toNat = n) :
    ∃ t, complete s (s.setIndex w) = .next t ∧ t.I.toNat = n ∧
      t = { s with I := t.I, PC := s.PC + 2, prevKeys := s.keys } :=
  ⟨_, complete_eq s _, hw, rfl⟩

theorem exec_ldI (nnn : Addr) (s : State) : exec (.ldI nnn) s = complete s (s.setIndex (targetOf nnn)) := rfl

theorem exec_addI (x : Reg) (s : State) :
    exec (.addI x) s = complete s (s.setIndex (s.indexPlus (s.reg x).toNat)) := rfl

theorem exec_ldF (x : Reg) (s : State) : exec (.ldF x) s = complete s (s.setIndex (glyphAddr (s.reg x))) := rfl

/-- Settles O21: all three complete with one `setIndex`; what differs is the value they write. -/
theorem indexLoadsWriteTheIndexAlone : Obligations.IndexLoadsWriteTheIndexAlone := by
  intro x nnn s
  rw [exec_ldI, exec_addI, exec_ldF]
  exact ⟨complete_setIndex s (targetOf_toNat nnn), complete_setIndex s (s.indexPlus_toNat _),
    complete_setIndex s (glyphAddr_toNat _)⟩

end Sys2Proof.Machine
end

