-- ==== Sys2Proof/Proofs/Display.lean ====
section
/-! PROOFS. Family 43_display.md: CLS, the snapshot, and the draw engine as the overlay of a mask of pixels: what one
half, one row and the rows of a sprite toggle and when they collide. -/

namespace Sys2Proof.Machine

open Sys2Proof.Safety

/-! ## CLS and the snapshot -/

theorem exec_cls (s : State) : exec .cls s = complete s s.clearDisplay := rfl

/-- Settles O27: the cycle completes with the blank bitmap, all of whose bytes are 0. -/
theorem clearTurnsEveryPixelOff : Obligations.ClearTurnsEveryPixelOff := by
  intro s
  have hblank (j : Fin 256) : FrameBuffer.blank[j] = 0 := Vector.getElem_replicate j.isLt
  rw [exec_cls]
  exact ⟨_, complete_eq s _, hblank, rfl, fun _ => rfl, rfl⟩

theorem serve_snapshot (s : State) : serve .snapshot s = .next s.takeSnapshot := rfl

/-- A snapshot of a state whose flag is clear only keeps its answer: the bitmap and `false`. -/
theorem takeSnapshot_of_clean {s : State} (h : s.dirty = false) :
    s.takeSnapshot = { s with lastSnapshot := some ⟨s.fb, false⟩ } := by
  simp only [State.takeSnapshot, h]

/-- Settles O51: the first snapshot leaves the flag clear, so a later one finds it clear. -/
theorem snapshotConsumesTheDirtyFlag : Obligations.SnapshotConsumesTheDirtyFlag := by
  intro s
  refine ⟨s.takeSnapshot, serve_snapshot s, rfl, fun v hv => ?_⟩
  rw [serve_snapshot, takeSnapshot_of_clean hv]

/-! ## Overlays -/

/-- From `r` to `r'` exactly the pixels of `mask` are toggled, and the collision result is raised iff one of them was
lit (43_display.md R172). -/
def Overlay (mask : Nat → Nat → Bool) (r r' : FrameBuffer × Bool) : Prop :=
  (∀ px py, px < 64 → py < 32 → FrameBuffer.pixel r'.1 px py = (FrameBuffer.pixel r.1 px py ^^ mask px py)) ∧
  (r'.2 = true ↔ r.2 = true ∨
    ∃ px py, px < 64 ∧ py < 32 ∧ FrameBuffer.pixel r.1 px py = true ∧ mask px py = true)

/-- Only the pixels of the display matter. -/
theorem Overlay.congr {m m' : Nat → Nat → Bool} {r r' : FrameBuffer × Bool} (h : Overlay m r r')
    (hm : ∀ px py, px < 64 → py < 32 → m' px py = m px py) : Overlay m' r r' := by
  obtain ⟨hpix, hcoll⟩ := h
  refine ⟨fun px py hx hy => by rw [hpix px py hx hy, hm px py hx hy], hcoll.trans (or_congr_right ?_)⟩
  constructor <;> rintro ⟨px, py, hx, hy, hlit, hbit⟩
  · exact ⟨px, py, hx, hy, hlit, (hm px py hx hy).trans hbit⟩
  · exact ⟨px, py, hx, hy, hlit, (hm px py hx hy).symm.trans hbit⟩

theorem Overlay.refl (r : FrameBuffer × Bool) : Overlay (fun _ _ => false) r r := by
  simp [Overlay]

/-- Two overlays that share no pixel: the second finds its own pixels as they were before the first. -/
theorem Overlay.trans {m m' : Nat → Nat → Bool} {r r' r'' : FrameBuffer × Bool} (h : Overlay m r r')
    (h' : Overlay m' r' r'') (hdisj : ∀ px py, m px py = true → m' px py = false) :
    Overlay (fun px py => m px py || m' px py) r r'' := by
  obtain ⟨hpix, hcoll⟩ := h
  obtain ⟨hpix', hcoll'⟩ := h'
  have hkept {px py : Nat} (hx : px < 64) (hy : py < 32) (hbit : m' px py = true) :
      FrameBuffer.pixel r'.1 px py = FrameBuffer.pixel r.1 px py := by
    cases hm : m px py with
    | false => simp [hpix px py hx hy, hm]
    | true => simp [hdisj px py hm] at hbit
  constructor
  · intro px py hx hy
    rw [hpix' px py hx hy, hpix px py hx hy, Bool.xor_assoc]
    cases hm : m px py with
    | false => simp only [hm, Bool.false_xor, Bool.false_or]
    | true => simp only [hm, hdisj px py hm, Bool.xor_false, Bool.or_false]
  · rw [hcoll', hcoll, or_assoc, or_congr_right]
    constructor
    · rintro (⟨px, py, hx, hy, hlit, hbit⟩ | ⟨px, py, hx, hy, hlit, hbit⟩)
      · exact ⟨px, py, hx, hy, hlit, by simp [hbit]⟩
      · exact ⟨px, py, hx, hy, hkept hx hy hbit ▸ hlit, by simp [hbit]⟩
    · rintro ⟨px, py, hx, hy, hlit, hbit⟩
      rcases Bool.or_eq_true_iff.1 hbit with hbit | hbit
      · exact Or.inl ⟨px, py, hx, hy, hlit, hbit⟩
      · exact Or.inr ⟨px, py, hx, hy, (hkept hx hy hbit).trans hlit, hbit⟩

/-! ## One half -/

/-- The pixels under the set bits of `bits` in framebuffer byte `j`. -/
def halfPixel (j : Nat) (bits : Byte) (px py : Nat) : Bool :=
  decide (8 * py + px / 8 = j) && bits.getLsbD (7 - px % 8)

theorem halfPixel_eq_true (j : Nat) (bits : Byte) (px py : Nat) :
    halfPixel j bits px py = true ↔ 8 * py + px / 8 = j ∧ bits.getLsbD (7 - px % 8) = true := by
  simp [halfPixel]

/-- Two bytes have a common set bit iff their conjunction is not 0. -/
theorem and_ne_zero_iff (a b : Byte) :
    (a &&& b != 0) = true ↔ ∃ i, i < 8 ∧ a.getLsbD i = true ∧ b.getLsbD i = true := by
  rw [bne_iff_ne, ne_eq, BitVec.eq_of_getLsbD_eq_iff]
  simp

theorem drawHalf_overlay {j : Nat} (bits : Byte) (r : FrameBuffer × Bool) (hj : j < 256) :
    Overlay (halfPixel j bits) r (drawHalf j bits r) := by
  constructor
  · intro px py _ _
    unfold FrameBuffer.pixel halfPixel
    rw [FrameBuffer.byte_drawHalf _ _ _ _ hj]
    by_cases hk : 8 * py + px / 8 = j
    · simp [hk]
    · simp [hk]
  · rw [drawHalf_collision, Bool.or_eq_true_iff, and_ne_zero_iff]
    refine or_congr_right ⟨?_, ?_⟩
    · rintro ⟨i, hi, hlit, hbit⟩
      have hbyte : 8 * (j / 8) + (8 * (j % 8) + (7 - i)) / 8 = j := by omega
      have hi' : 7 - (8 * (j % 8) + (7 - i)) % 8 = i := by omega
      refine ⟨8 * (j % 8) + (7 - i), j / 8, by omega, by omega, ?_, ?_⟩
      · rw [FrameBuffer.pixel, hbyte, hi', hlit]
      · rw [halfPixel_eq_true, hbyte, hi']
        exact ⟨rfl, hbit⟩
    · rintro ⟨px, py, _, _, hlit, hhalf⟩
      obtain ⟨rfl, hbit⟩ := (halfPixel_eq_true ..).1 hhalf
      exact ⟨7 - px % 8, by omega, hlit, hbit⟩

/-- The halves of two different bytes share no pixel. -/
theorem halfPixel_disjoint {j k : Nat} (hjk : j ≠ k) (a b : Byte) (px py : Nat) (h : halfPixel j a px py = true) :
    halfPixel k b px py = false := by
  obtain ⟨rfl, _⟩ := (halfPixel_eq_true ..).1 h
  simp [halfPixel, hjk]

/-! ## One row -/

/-- One sprite byte covers eight pixels of its row. -/
theorem spritePixel_singleton (b : Byte) (x0 y px py : Nat) :
    spritePixel [b] x0 y px py = true ↔
      py = y ∧ x0 ≤ px ∧ px < x0 + 8 ∧ b.getLsbD (7 - (px - x0)) = true := by
  by_cases hy : py = y
  · subst hy
    simp [spritePixel, and_assoc]
  · by_cases hle : y ≤ py
    · have : py - y ≠ 0 := by omega
      simp [spritePixel, hy, this]
    · simp [spritePixel, hy, hle]

/-- A pixel of a row on the display lies in the origin's byte column or, where the row has a right half, in the next one
(43_display.md R165, R168). -/
theorem column_of_spritePixel_singleton {b : Byte} {x0 y px py : Nat} (hx : px < 64)
    (h : spritePixel [b] x0 y px py = true) :
    px / 8 = x0 / 8 ∨ (px / 8 = x0 / 8 + 1 ∧ x0 % 8 ≠ 0 ∧ x0 / 8 < 7) := by
  obtain ⟨_, hge, hlt, _⟩ := (spritePixel_singleton ..).1 h
  omega

/-- The left half shows the part of the sprite byte in the origin's own byte column. -/
theorem halfPixel_left (b : Byte) {x0 y px : Nat} (py : Nat) (hx0 : x0 < 64) (hy : y < 32) (hx : px < 64) :
    halfPixel (leftIndex x0 y) (b >>> (x0 % 8)) px py =
      (decide (px / 8 = x0 / 8) && spritePixel [b] x0 y px py) := by
  have hpos : 8 * py + px / 8 = leftIndex x0 y ↔ px / 8 = x0 / 8 ∧ py = y := by
    unfold leftIndex displayH; omega
  rw [Bool.eq_iff_iff]
  simp only [halfPixel_eq_true, Bool.and_eq_true, decide_eq_true_eq, spritePixel_singleton, hpos, and_assoc,
    BitVec.getLsbD_ushiftRight]
  refine and_congr_right fun hcol => and_congr_right fun _ => ?_
  by_cases hle : x0 ≤ px
  · have hbit : x0 % 8 + (7 - px % 8) = 7 - (px - x0) := by omega
    have hlt : px < x0 + 8 := by omega
    simp [hle, hlt, hbit]
  · have hout : b.getLsbD (x0 % 8 + (7 - px % 8)) = false := BitVec.getLsbD_of_ge _ _ (by omega)
    simp [hle, hout]

/-- The bits shifted past bit 7 are the ones `trunc8` drops. -/
theorem trunc8_shiftLeft (b : Byte) (k : Nat) : trunc8 (b.toNat <<< k) = b <<< k := by
  apply BitVec.eq_of_toNat_eq
  simp [trunc8]

/-- The right half shows the part of the sprite byte in the next byte column. -/
theorem halfPixel_right (b : Byte) {x0 y px : Nat} (py : Nat) (hx0 : x0 / 8 < 7) (hy : y < 32) (hx : px < 64) :
    halfPixel (leftIndex x0 y + 1) (trunc8 (b.toNat <<< (8 - x0 % 8))) px py =
      (decide (px / 8 = x0 / 8 + 1) && spritePixel [b] x0 y px py) := by
  have hpos : 8 * py + px / 8 = leftIndex x0 y + 1 ↔ px / 8 = x0 / 8 + 1 ∧ py = y := by
    unfold leftIndex displayH; omega
  rw [Bool.eq_iff_iff]
  simp only [trunc8_shiftLeft, halfPixel_eq_true, Bool.and_eq_true, decide_eq_true_eq, spritePixel_singleton, hpos,
    and_assoc, BitVec.getLsbD_shiftLeft]
  refine and_congr_right fun hcol => and_congr_right fun _ => ?_
  have hle : x0 ≤ px := by omega
  by_cases hlt : px < x0 + 8
  · have hbit : 7 - px % 8 - (8 - x0 % 8) = 7 - (px - x0) := by omega
    have hin : ¬ 7 - px % 8 < 8 - x0 % 8 := by omega
    have h8 : 7 - px % 8 < 8 := by omega
    simp [hle, hlt, hbit, hin, h8]
  · have hout : 7 - px % 8 < 8 - x0 % 8 := by omega
    simp [hlt, hout]

/-- The halves of a row toggle its sprite byte's eight pixels; a missing right half has no pixel on the display. -/
theorem drawRow_overlay (b : Byte) (r : FrameBuffer × Bool) {x0 y : Nat} (hx0 : x0 < 64) (hy : y < 32) :
    Overlay (spritePixel [b] x0 y) r (drawRow x0 y b r) := by
  have hleft := drawHalf_overlay (b >>> (x0 % 8)) r (leftIndex_lt y hx0)
  rcases drawRow_cases x0 y b r with ⟨⟨_, hin⟩, e⟩ | ⟨hone, e⟩ <;> rw [e]
  · obtain ⟨hj, hcol⟩ := leftIndex_succ_lt y hx0 hin
    refine (hleft.trans (drawHalf_overlay _ _ hj)
      (halfPixel_disjoint (Nat.succ_ne_self _).symm _ _)).congr fun px py hx _ => ?_
    rw [halfPixel_left b py hx0 hy hx, halfPixel_right b py hcol hy hx, ← Bool.and_or_distrib_right,
      Bool.eq_and_self]
    intro hbit
    obtain h | ⟨h, _⟩ := column_of_spritePixel_singleton hx hbit <;> simp [h]
  · refine hleft.congr fun px py hx _ => ?_
    have hclip : x0 % 8 = 0 ∨ x0 / 8 = 7 := by
      unfold leftIndex displayH at hone; omega
    rw [halfPixel_left b py hx0 hy hx, Bool.eq_and_self]
    intro hbit
    obtain h | ⟨_, hs, hcol⟩ := column_of_spritePixel_singleton hx hbit
    · exact decide_eq_true h
    · omega

/-! ## The whole sprite -/

/-- A sprite covers no pixel above its origin. -/
theorem spritePixel_of_above {sprite : List Byte} {x0 y px py : Nat} (h : py < y) :
    spritePixel sprite x0 y px py = false := by
  simp [spritePixel, Nat.not_le.2 h]

/-- A sprite is its first row over the rest of it, one row further down. -/
theorem spritePixel_cons (b : Byte) (bs : List Byte) (x0 y px py : Nat) :
    spritePixel (b :: bs) x0 y px py = (spritePixel [b] x0 y px py || spritePixel bs x0 (y + 1) px py) := by
  rcases Nat.lt_trichotomy py y with h | rfl | h
  · simp [spritePixel_of_above h, spritePixel_of_above (Nat.lt_succ_of_lt h)]
  · simp [spritePixel]
  · have hk : py - y = (py - (y + 1)) + 1 := by omega
    simp [spritePixel, h, Nat.le_of_lt h, hk]

/-- The rows from `row` on are one overlay; a row past the bottom edge has no pixel on the display (43_display.md
R167). -/
theorem drawRows_overlay {x0 : Nat} (y0 : Nat) (sprite : List Byte) (row : Nat) (r : FrameBuffer × Bool)
    (hx0 : x0 < 64) : Overlay (spritePixel sprite x0 (y0 + row)) r (drawRows x0 y0 sprite row r) := by
  induction sprite generalizing row r with
  | nil => exact (Overlay.refl r).congr (by simp [spritePixel])
  | cons b bs ih =>
    rw [drawRows]
    split
    next hclip => exact (Overlay.refl r).congr fun px py _ hy => spritePixel_of_above (by omega)
    next hin =>
      have hrow := drawRow_overlay b r hx0 (y := y0 + row) (by omega)
      refine (hrow.trans (ih (row + 1) _) fun px py h => ?_).congr fun px py _ _ => spritePixel_cons ..
      obtain ⟨rfl, _⟩ := (spritePixel_singleton ..).1 h
      exact spritePixel_of_above (by omega)

/-- Settles O29: the draw starts with no collision, so it is the overlay of the sprite's pixels. -/
theorem drawEngineIsItsPixelForm : Obligations.DrawEngineIsItsPixelForm := by
  intro sprite sx sy fb
  obtain ⟨hpix, hcoll⟩ :=
    drawRows_overlay (sy.toNat % 32) sprite 0 (fb, false) (Nat.mod_lt sx.toNat (by decide : 64 > 0))
  exact ⟨hpix, hcoll.trans (by simp)⟩

end Sys2Proof.Machine
end

