-- ==== Sys2Proof/Proofs/TimersKeys.lean ====
section
/-! PROOFS. Family 44_timers_keys.md: the timers, the key skips and the key wait; and the instructions that go with
them: the jumps and the call stack, RND, the transfers between registers and memory, and DRW. -/

namespace Sys2Proof.Machine

open Sys2Proof.Safety

/-! ## Memory transfers -/

/-- The k-th of the bytes stored inside memory reads back. -/
theorem State.byteAt_storeBytes_of_getElem? (s : State) {a k : Nat} {bs : List Byte} {b : Byte} (h : memOk s)
    (ha : a + bs.length ≤ memSize) (hb : bs[k]? = some b) : (s.storeBytes a bs).byteAt (a + k) = b := by
  simp [State.byteAt_storeBytes s a bs h ha, hb]

/-- A dump that ends inside memory advances I with no wrap modulo 2^16. -/
theorem State.indexPlus_dumpCount_toNat {s : State} {x : Reg} (h : s.indexAddr + x.val < memSize) :
    (s.indexPlus (dumpCount x)).toNat = s.indexAddr + x.val + 1 := by
  have hlt : s.I.toNat + dumpCount x < 65536 := Nat.lt_of_le_of_lt (Nat.succ_le_of_lt h) (by decide)
  rw [State.indexPlus_toNat, Nat.mod_eq_of_lt hlt]
  rfl

/-- The registers up to V[x] take the bytes at I; those above keep their values. -/
theorem State.reg_setRegsFrom_bytesAt (s : State) (x r : Reg) :
    (s.setRegsFrom 0 (s.bytesAt s.indexAddr (dumpCount x))).reg r =
      if r ≤ x then s.byteAt (s.indexAddr + r.val) else s.reg r := by
  rw [State.reg_setRegsFrom, if_pos (Nat.zero_le _), Nat.sub_zero]
  split
  next hle =>
    have hin : r.val < dumpCount x := Nat.lt_succ_of_le hle
    rw [State.getElem?_bytesAt s _ _ _ hin, Option.getD_some]
  next hgt =>
    have hout : dumpCount x ≤ r.val := Nat.succ_le_of_lt (Fin.not_le.1 hgt)
    rw [List.getElem?_eq_none (by rwa [State.length_bytesAt]), Option.getD_none]

theorem exec_ldB (x : Reg) (s : State) :
    exec (.ldB x) s =
      checked s s.indexAddr 3 (complete s (s.storeBytes s.indexAddr (decimalDigits (s.reg x)))) := rfl

theorem exec_storeRegs (x : Reg) (s : State) :
    exec (.storeRegs x) s = checked s s.indexAddr (dumpCount x)
      (complete s ((s.storeBytes s.indexAddr (s.regsUpTo x)).setIndex (s.indexPlus (dumpCount x)))) := rfl

theorem exec_loadRegs (x : Reg) (s : State) :
    exec (.loadRegs x) s = checked s s.indexAddr (dumpCount x)
      (complete s ((s.setRegsFrom 0 (s.bytesAt s.indexAddr (dumpCount x))).setIndex (s.indexPlus (dumpCount x)))) := rfl

/-- A number below 256 is kept by `trunc8`. -/
theorem trunc8_toNat {n : Nat} (h : n < 256) : (trunc8 n).toNat = n :=
  (BitVec.toNat_ofNat n 8).trans (Nat.mod_eq_of_lt h)

/-- Settles O22: the digits are the three bytes of the store at I; each is below 256, so none is truncated. -/
theorem decimalDigitsAreStored : Obligations.DecimalDigitsAreStored := by
  intro x s hmem
  rw [exec_ldB]
  refine ⟨fun hin => ?inRange, fun hout => checked_of_outOfRange (Nat.lt_succ_of_le hout) (by decide)⟩
  have hfit : s.indexAddr + (decimalDigits (s.reg x)).length ≤ memSize := Nat.succ_le_of_lt hin
  have hv := (s.reg x).isLt
  rw [checked_of_inRange (Or.inr (Nat.succ_le_of_lt hin)), complete_eq]
  have hbyte {k d : Nat} (hd : d < 256) (hk : (decimalDigits (s.reg x))[k]? = some (trunc8 d)) :
      ((s.storeBytes s.indexAddr (decimalDigits (s.reg x))).byteAt (s.indexAddr + k)).toNat = d := by
    rw [s.byteAt_storeBytes_of_getElem? hmem hfit hk, trunc8_toNat hd]
  exact ⟨_, rfl, hbyte (k := 0) (by omega) rfl, hbyte (k := 1) (by omega) rfl, hbyte (k := 2) (by omega) rfl,
    s.byteAt_storeBytes_outside _ _ hmem hfit, rfl⟩

/-- Settles O23: the dump is one store of the registers at I, and the commit of I leaves memory alone. -/
theorem registerDumpStoresAndAdvances : Obligations.RegisterDumpStoresAndAdvances := by
  intro x s hmem
  rw [exec_storeRegs]
  refine ⟨fun hin => ?inRange, fun hout => checked_of_outOfRange (Nat.lt_succ_of_le hout) (Nat.succ_ne_zero _)⟩
  have hfit : s.indexAddr + (s.regsUpTo x).length ≤ memSize := by
    rw [State.length_regsUpTo]
    exact Nat.succ_le_of_lt hin
  rw [checked_of_inRange (Or.inr (Nat.succ_le_of_lt hin)), complete_eq]
  refine ⟨_, rfl, fun r hr => ?stored, fun a ha => ?kept, State.indexPlus_dumpCount_toNat hin, rfl⟩
  case stored => exact s.byteAt_storeBytes_of_getElem? hmem hfit (s.getElem?_regsUpTo x r hr)
  case kept =>
    refine s.byteAt_storeBytes_outside _ _ hmem hfit a ?_
    rwa [State.length_regsUpTo]

/-- Settles O24: the load writes V alone, so memory stays as it is. -/
theorem registerLoadReadsAndAdvances : Obligations.RegisterLoadReadsAndAdvances := by
  intro x s
  rw [exec_loadRegs]
  refine ⟨fun hin => ?inRange, fun hout => checked_of_outOfRange (Nat.lt_succ_of_le hout) (Nat.succ_ne_zero _)⟩
  have hreg := s.reg_setRegsFrom_bytesAt x
  have hV := s.setRegsFrom_eq 0 (s.bytesAt s.indexAddr (dumpCount x))
  rw [checked_of_inRange (Or.inr (Nat.succ_le_of_lt hin)), complete_eq]
  refine ⟨_, rfl, fun r hr => ?loaded, fun r hr => ?kept, ?memory, State.indexPlus_dumpCount_toNat hin, ?frame⟩
  case loaded => exact (hreg r).trans (if_pos hr)
  case kept => exact (hreg r).trans (if_neg (Fin.not_le.2 hr))
  case memory => rw [hV]; exact fun _ => rfl
  case frame => rw [hV]; rfl

/-! ## DRW -/

/-- The bitmap and the collision of DRW: the `n` bytes at I drawn at the old `V[x]`, `V[y]` (43_display.md R162). -/
def State.drawn (s : State) (x y : Reg) (n : Nibble) : FrameBuffer × Bool :=
  draw (s.bytesAt s.indexAddr n.toNat) (s.reg x) (s.reg y) s.fb

/-- A sprite of no bytes leaves the bitmap and collides with nothing. -/
theorem State.drawn_zero (s : State) (x y : Reg) : s.drawn x y 0 = (s.fb, false) := rfl

theorem exec_drw (x y : Reg) (n : Nibble) (s : State) :
    exec (.drw x y n) s = checked s s.indexAddr n.toNat
      (complete s ((s.setDisplay (s.drawn x y n).1).setReg flagReg (flagByte (s.drawn x y n).2))) := rfl

/-- Settles O28: the drawn bitmap and the flag are two updates of the old state; a sprite of no bytes draws nothing. -/
theorem drawSetsTheCollisionFlag : Obligations.DrawSetsTheCollisionFlag := by
  intro x y n s
  rw [exec_drw]
  refine ⟨fun hin => ?inRange, fun hn hout => checked_of_outOfRange hout fun h0 => hn (BitVec.eq_of_toNat_eq h0)⟩
  have hlen : n.toNat = 0 ∨ s.indexAddr + n.toNat ≤ memSize := hin.imp_left (congrArg BitVec.toNat)
  have hflag := State.reg_setReg_same (s.setDisplay (s.drawn x y n).1) flagReg (flagByte (s.drawn x y n).2)
  rw [checked_of_inRange hlen, complete_eq]
  refine ⟨_, rfl, rfl, hflag, fun r hr => State.reg_setReg_other _ _ hr, fun _ => rfl, ?noBytes, rfl⟩
  case noBytes =>
    rintro rfl
    rw [State.drawn_zero] at hflag ⊢
    exact ⟨rfl, hflag⟩

/-! ## Key skips -/

/-- Below 16, and everywhere under the low-nibble policy, the key is the bit of the index modulo 16. -/
theorem keyPressed_eq_bit {policy : KeyIndexPolicy} {k : Byte} (sample : Word)
    (h : k.toNat < 16 ∨ policy = .lowNibble) :
    keyPressed policy sample k = some (sample.getLsbD (k.toNat % 16)) := by
  by_cases hk : k.toNat < 16
  · simp only [keyPressed, hk, if_true, Nat.mod_eq_of_lt hk]
  · obtain rfl := h.resolve_left hk
    simp only [keyPressed, hk, if_false]

theorem keyPressed_notPressed {k : Byte} (sample : Word) (hk : 16 ≤ k.toNat) :
    keyPressed .notPressed sample k = some false := by
  rw [keyPressed, if_neg (Nat.not_lt.2 hk)]

theorem keyPressed_fault {k : Byte} (sample : Word) (hk : 16 ≤ k.toNat) : keyPressed .fault sample k = none := by
  rw [keyPressed, if_neg (Nat.not_lt.2 hk)]

theorem exec_skp_of_some {x : Reg} {s : State} {p : Bool}
    (h : keyPressed s.cfg.keyIndexPolicy s.keys (s.reg x) = some p) : exec (.skp x) s = skipIf p s := by
  simp only [exec, execSkp, State.sample, h]

theorem exec_sknp_of_some {x : Reg} {s : State} {p : Bool}
    (h : keyPressed s.cfg.keyIndexPolicy s.keys (s.reg x) = some p) : exec (.sknp x) s = skipIf (!p) s := by
  simp only [exec, execSknp, State.sample, h]

theorem exec_skp_of_none {x : Reg} {s : State} (h : keyPressed s.cfg.keyIndexPolicy s.keys (s.reg x) = none) :
    exec (.skp x) s = raiseHazard (.keyIndex (s.reg x)) s := by
  simp only [exec, execSkp, State.sample, h]

theorem exec_sknp_of_none {x : Reg} {s : State} (h : keyPressed s.cfg.keyIndexPolicy s.keys (s.reg x) = none) :
    exec (.sknp x) s = raiseHazard (.keyIndex (s.reg x)) s := by
  simp only [exec, execSknp, State.sample, h]

/-- Settles O31: SKP skips on the answer of `keyPressed`, SKNP on its negation, and both fault where it has none. -/
theorem keySkipsTestTheSample : Obligations.KeySkipsTestTheSample := by
  intro x s
  refine ⟨fun h => ?bit, fun hk hp => ?notPressed, fun hk hp => ?fault⟩
  case bit =>
    have hkey := keyPressed_eq_bit s.keys h
    rw [exec_skp_of_some hkey, exec_sknp_of_some hkey]
    refine ⟨skipIf_wroteRegs s Iff.rfl, ?_⟩
    rw [← ite_not]
    exact skipIf_wroteRegs s (by rw [Bool.not_eq_true', Bool.not_eq_true])
  case notPressed =>
    have hkey : keyPressed s.cfg.keyIndexPolicy s.keys (s.reg x) = some false := hp ▸ keyPressed_notPressed s.keys hk
    rw [exec_skp_of_some hkey, exec_sknp_of_some hkey]
    exact ⟨⟨_, skipIf_eq false s, wroteRegs_retire s _ _⟩, ⟨_, skipIf_eq true s, wroteRegs_retire s _ _⟩⟩
  case fault =>
    have hkey : keyPressed s.cfg.keyIndexPolicy s.keys (s.reg x) = none := hp ▸ keyPressed_fault s.keys hk
    exact ⟨exec_skp_of_none hkey, exec_sknp_of_none hkey⟩

/-! ## The key wait -/

/-- A key is released iff it was held at the previous sample and is not held now (44_timers_keys.md R185). -/
theorem State.getLsbD_releasedKeys (s : State) {k : Nat} (hk : k < 16) :
    s.releasedKeys.getLsbD k = (s.prevKeys.getLsbD k && !s.keys.getLsbD k) := by
  simp [State.releasedKeys, State.sample, hk]

/-- The lowest key is the set bit with none set below it. -/
theorem lowestKey_eq {m : Word} {k : Nat} (hk : k < 16) (hset : m.getLsbD k = true)
    (hlow : ∀ j, j < k → m.getLsbD j = false) : lowestKey m = k := by
  have hfind : (List.range 16).find? (fun j => m.getLsbD j) = some k :=
    List.find?_range_eq_some.2 ⟨hset, List.mem_range.2 hk, fun j hj => by simp [hlow j hj]⟩
  rw [lowestKey, hfind, Option.getD_some]

theorem exec_ldVxK_of_released {x : Reg} {s : State} (h : s.releasedKeys ≠ 0) :
    exec (.ldVxK x) s = complete s (s.setReg x (trunc8 (lowestKey s.releasedKeys))) := if_neg h

theorem exec_ldVxK_of_none {x : Reg} {s : State} (h : s.releasedKeys = 0) :
    exec (.ldVxK x) s = .next (s.retire s.PC) := if_pos h

/-- Settles O32: the key k makes the released keys not 0 and is the lowest of them; with none they are 0. -/
theorem keyWaitCompletesOnARelease : Obligations.KeyWaitCompletesOnARelease := by
  intro x s
  refine ⟨fun k hk hprev hnow hlow => ?released, fun hheld => ?waiting⟩
  case released =>
    have hset : s.releasedKeys.getLsbD k = true := by
      rw [s.getLsbD_releasedKeys hk, hprev, hnow]; rfl
    have hnone (j : Nat) (hj : j < k) : s.releasedKeys.getLsbD j = false := by
      rw [s.getLsbD_releasedKeys (hj.trans hk)]
      simpa using hlow j hj
    have hne : s.releasedKeys ≠ 0 := fun h0 => by simp [h0] at hset
    rw [exec_ldVxK_of_released hne, lowestKey_eq hk hset hnone]
    obtain ⟨t, hnext, hx, hframe⟩ := complete_setReg s x (trunc8 k)
    exact ⟨t, hnext, hx ▸ trunc8_toNat (by omega), hframe⟩
  case waiting =>
    have hzero : s.releasedKeys = 0 := by
      refine BitVec.eq_of_getLsbD_eq fun k hk => ?_
      rw [s.getLsbD_releasedKeys hk]
      simpa using hheld k hk
    exact exec_ldVxK_of_none hzero

/-! ## Timers -/

theorem exec_ldVxDT (x : Reg) (s : State) : exec (.ldVxDT x) s = complete s (s.setReg x s.DT) := rfl
theorem exec_ldDTVx (x : Reg) (s : State) : exec (.ldDTVx x) s = complete s (s.setDelay (s.reg x)) := rfl
theorem exec_ldSTVx (x : Reg) (s : State) : exec (.ldSTVx x) s = complete s (s.setSound (s.reg x)) := rfl

/-- Settles O30: each of the three completes with one update. -/
theorem timerLoadsMoveOneByte : Obligations.TimerLoadsMoveOneByte := by
  intro x s
  rw [exec_ldVxDT, exec_ldDTVx, exec_ldSTVx]
  exact ⟨complete_setReg s x s.DT, complete_eq s _, complete_eq s _⟩

/-- Counting down is the subtraction of naturals, which stops at 0 (44_timers_keys.md R187). -/
theorem countDown_toNat (b : Byte) : (countDown b).toNat = b.toNat - 1 := by
  unfold countDown
  split
  next h => rw [h]; rfl
  next h =>
    have hpos : b.toNat ≠ 0 := fun h0 => h (BitVec.eq_of_toNat_eq h0)
    exact BitVec.toNat_sub_of_le (Nat.one_le_iff_ne_zero.2 hpos)

theorem serve_timer (s : State) : serve .timer s = .next s.tick := rfl

/-- Settles O33: a tick counts both timers down, each on its own. -/
theorem tickCountsEachTimerDown : Obligations.TickCountsEachTimerDown := fun s =>
  ⟨s.tick, serve_timer s, countDown_toNat s.DT, countDown_toNat s.ST, rfl⟩

/-! ## Jumps -/

theorem exec_jp (nnn : Addr) (s : State) : exec (.jp nnn) s = .next (s.retire (targetOf nnn)) := rfl

theorem exec_jpV0 (nnn : Addr) (s : State) :
    exec (.jpV0 nnn) s = .next (s.retire (offsetTarget nnn (s.reg 0))) := rfl

/-- The largest target is 4095 + 255, so the 16-bit sum of R105 never wraps. -/
theorem offsetTarget_toNat (nnn : Addr) (v : Byte) : (offsetTarget nnn v).toNat = nnn.toNat + v.toNat := by
  have hn := nnn.isLt
  have hv := v.isLt
  exact (BitVec.toNat_ofNat _ 16).trans (Nat.mod_eq_of_lt (by omega))

/-- Settles O10: the cycle only commits, with the widened address as its next PC. -/
theorem jumpGoesToItsAddress : Obligations.JumpGoesToItsAddress := fun nnn s =>
  ⟨_, exec_jp nnn s, targetOf_toNat nnn, wroteRegs_retire s _ _⟩

/-- Settles O11: the cycle only commits, with the sum as its next PC. -/
theorem jumpV0GoesToTheSum : Obligations.JumpV0GoesToTheSum := fun nnn s =>
  ⟨_, exec_jpV0 nnn s, offsetTarget_toNat nnn _, wroteRegs_retire s _ _⟩

/-! ## The call stack -/

theorem exec_call_of_push {nnn : Addr} {s t : State} (h : s.push (s.PC + 2) = some t) :
    exec (.call nnn) s = .next (t.retire (targetOf nnn)) := by
  simp only [exec, execCall, State.nextPC_eq, h]

theorem exec_call_of_full {nnn : Addr} {s : State} (h : s.push (s.PC + 2) = none) :
    exec (.call nnn) s = raiseHazard .stackOverflow s := by
  simp only [exec, execCall, State.nextPC_eq, h]

/-- Settles O12: a push has a free entry exactly where fewer than 32 are in use. -/
theorem callPushesTheReturnAddress : Obligations.CallPushesTheReturnAddress := by
  intro nnn s
  rcases s.push_cases (s.PC + 2) with ⟨hfull, hpush⟩ | ⟨hfree, hpush⟩
  · refine ⟨fun hlt => absurd hlt ?_, fun _ => exec_call_of_full hpush⟩
    rw [hfull]
    decide
  · refine ⟨fun _ => ⟨_, exec_call_of_push hpush, ?pushed, fun k hk => ?others, rfl, targetOf_toNat nnn, rfl⟩,
      fun hfull => absurd hfull hfree.ne⟩
    case pushed => exact Vector.getElem?_set_self hfree
    case others => exact Vector.getElem?_set_ne hfree hk.symm

theorem exec_ret_of_pop {s t : State} {a : Word} (h : s.pop = some (a, t)) : exec .ret s = .next (t.retire a) := by
  simp only [exec, execRet, h]

theorem exec_ret_of_empty {s : State} (h : s.pop = none) : exec .ret s = raiseHazard .stackUnderflow s := by
  simp only [exec, execRet, h]

/-- Settles O13: a pop finds an entry exactly where one is in use. -/
theorem returnPopsTheNewestAddress : Obligations.ReturnPopsTheNewestAddress := by
  intro s
  rcases s.pop_cases with ⟨hempty, hpop⟩ | ⟨hused, hpop⟩
  · refine ⟨fun hpos => absurd hpos ?_, fun _ => exec_ret_of_empty hpop⟩
    rw [hempty]
    decide
  · exact ⟨fun _ => ⟨_, exec_ret_of_pop hpop, Vector.getElem?_eq_getElem _, rfl, rfl⟩,
      fun hempty => absurd hempty hused.ne'⟩

/-! ## RND -/

theorem exec_rnd (x : Reg) (kk : Byte) (s : State) :
    exec (.rnd x kk) s =
      complete s { s.setReg x (Config.draw8 s.drawCount &&& kk) with drawCount := s.drawCount + 1 } := rfl

/-- A masked byte has no bit outside its mask. -/
theorem and_and_not_self (b kk : Byte) : b &&& kk &&& ~~~kk = 0 := by
  rw [BitVec.and_assoc, BitVec.and_not_self]
  exact BitVec.and_zero

/-- Settles O20: V[x] takes the masked byte, whatever byte is drawn. -/
theorem randomIsMasked : Obligations.RandomIsMasked := by
  intro x kk s
  have hx : (s.setReg x (Config.draw8 s.drawCount &&& kk)).reg x = Config.draw8 s.drawCount &&& kk :=
    State.reg_setReg_same s x _
  rw [exec_rnd, complete_eq]
  refine ⟨_, rfl, hx, ?mask, rfl, fun r hr => ?others, fun _ => rfl, rfl⟩
  case mask => exact (congrArg (· &&& ~~~kk) hx).trans (and_and_not_self _ kk)
  case others => exact State.reg_setReg_other s _ hr

end Sys2Proof.Machine
end

