-- ==== Sys2Proof/Proofs/Exceptions.lean ====
section
/-! PROOFS. Family 60_exceptions.md: how every cycle ends, and what serving an instruction event or a command does
in each mode. -/

namespace Sys2Proof.Machine

/-! ## How a cycle ends -/

/-- `u` differs from `s` at most in what the body of an instruction may write: not in PC and `prevKeys`, which the
commit writes, nor in anything of the host or the scheduler. -/
def BodyWrites (s u : State) : Prop :=
  u = { s with
    V := u.V, I := u.I, SP := u.SP, stack := u.stack, DT := u.DT, ST := u.ST, mem := u.mem, fb := u.fb, dirty := u.dirty
    drawCount := u.drawCount }

theorem bodyWrites_of_onlyV {s u : State} (h : u = { s with V := u.V }) : BodyWrites s u := by
  rw [h]; rfl

/-- The two ways a cycle of `s` ends: the commit of what its instruction wrote, or a fault that commits nothing
(40_control.md R100, 60_exceptions.md R204, decision D14). -/
inductive EndsCycle (s : State) : Host.Outcome State Fault Refusal → Prop
  | completes {u : State} (next : Word) (h : BodyWrites s u) : EndsCycle s (.next (u.retire next))
  | faults (f : SessionFault) : EndsCycle s (.next (s.enterFault f))

theorem endsCycle_complete {s u : State} (h : BodyWrites s u) : EndsCycle s (complete s u) := .completes _ h

theorem endsCycle_skipIf (c : Bool) (s : State) : EndsCycle s (skipIf c s) := .completes _ rfl

theorem endsCycle_raiseHazard (s : State) (h : Hazard) : EndsCycle s (raiseHazard h s) := .faults _

theorem endsCycle_checked {s : State} {k : Host.Outcome State Fault Refusal} (base len : Nat) (h : EndsCycle s k) :
    EndsCycle s (checked s base len k) := by
  rcases checked_cases s base len k with ⟨-, -, hout⟩ | ⟨-, hin⟩
  · rw [hout]; exact .faults _
  · rwa [hin]

theorem endsCycle_call (nnn : Addr) (s : State) : EndsCycle s (exec (.call nnn) s) := by
  rcases s.push_cases (s.PC + 2) with ⟨-, hfull⟩ | ⟨_, hpush⟩
  · rw [exec_call_of_full hfull]; exact endsCycle_raiseHazard s _
  · rw [exec_call_of_push hpush]; exact .completes _ rfl

theorem endsCycle_ret (s : State) : EndsCycle s (exec .ret s) := by
  rcases s.pop_cases with ⟨-, hempty⟩ | ⟨_, hpop⟩
  · rw [exec_ret_of_empty hempty]; exact endsCycle_raiseHazard s _
  · rw [exec_ret_of_pop hpop]; exact .completes _ rfl

theorem endsCycle_skp (x : Reg) (s : State) : EndsCycle s (exec (.skp x) s) := by
  cases hkey : keyPressed s.cfg.keyIndexPolicy s.keys (s.reg x) with
  | none => rw [exec_skp_of_none hkey]; exact endsCycle_raiseHazard s _
  | some p => rw [exec_skp_of_some hkey]; exact endsCycle_skipIf p s

theorem endsCycle_sknp (x : Reg) (s : State) : EndsCycle s (exec (.sknp x) s) := by
  cases hkey : keyPressed s.cfg.keyIndexPolicy s.keys (s.reg x) with
  | none => rw [exec_sknp_of_none hkey]; exact endsCycle_raiseHazard s _
  | some p => rw [exec_sknp_of_some hkey]; exact endsCycle_skipIf (!p) s

theorem endsCycle_ldVxK (x : Reg) (s : State) : EndsCycle s (exec (.ldVxK x) s) := by
  by_cases h : s.releasedKeys = 0
  · rw [exec_ldVxK_of_none h]; exact .completes _ rfl
  · rw [exec_ldVxK_of_released h]; exact endsCycle_complete rfl

theorem endsCycle_loadRegs (x : Reg) (s : State) : EndsCycle s (exec (.loadRegs x) s) := by
  have hload :
      BodyWrites s ((s.setRegsFrom 0 (s.bytesAt s.indexAddr (dumpCount x))).setIndex (s.indexPlus (dumpCount x))) := by
    rw [s.setRegsFrom_eq]; rfl
  rw [exec_loadRegs]
  exact endsCycle_checked _ _ (endsCycle_complete hload)

/-- Every instruction ends its cycle in one of the two ways. -/
theorem endsCycle_exec (i : Instr) (s : State) : EndsCycle s (exec i s) := by
  cases i with
  | cls | sys | ldByte | addByte | ldReg | ldI | addI | ldF | rnd | ldVxDT | ldDTVx | ldSTVx =>
    exact endsCycle_complete rfl
  | orReg | andReg | xorReg | addReg | sub | shr | subn | shl =>
    exact endsCycle_complete (bodyWrites_of_onlyV (s.writeResultAndFlag_eq _ _ _))
  | jp | jpV0 => exact .completes _ rfl
  | seByte | sneByte | seReg | sneReg => exact endsCycle_skipIf _ s
  | call nnn => exact endsCycle_call nnn s
  | ret => exact endsCycle_ret s
  | skp x => exact endsCycle_skp x s
  | sknp x => exact endsCycle_sknp x s
  | ldVxK x => exact endsCycle_ldVxK x s
  | ldB | storeRegs | drw => exact endsCycle_checked _ _ (endsCycle_complete rfl)
  | loadRegs x => exact endsCycle_loadRegs x s

/-- Every cycle ends in one of the two ways: a fetch that fails and an illegal word fault. -/
theorem endsCycle_cycle (s : State) : EndsCycle s (cycle s) := by
  rcases cycle_cases s with ⟨-, hfetch⟩ | ⟨-, -, hillegal⟩ | ⟨i, -, -, hexec⟩
  · rw [hfetch]; exact .faults _
  · rw [hillegal]; exact .faults _
  · rw [hexec]; exact endsCycle_exec i s

theorem BodyWrites.mode_eq {s u : State} (h : BodyWrites s u) : u.mode = s.mode := by
  rw [BodyWrites] at h
  rw [h]

/-- A cycle answers a next state: in the mode it started in, or its start with a fault entered. -/
theorem EndsCycle.keepsMode_or_faults {s : State} {o : Host.Outcome State Fault Refusal} (h : EndsCycle s o) :
    ∃ t, o = .next t ∧ (t.mode = s.mode ∨ ∃ f, t = s.enterFault f) := by
  cases h with
  | completes next hbody => exact ⟨_, rfl, .inl hbody.mode_eq⟩
  | faults f => exact ⟨_, rfl, .inr ⟨f, rfl⟩⟩

/-! ## Instruction events -/

theorem serve_instruction_of_running {s : State} (h : s.mode = .running) : serve .instruction s = cycle s := if_pos h

theorem serve_instruction_of_not_running {s : State} (h : s.mode ≠ .running) : serve .instruction s = .next s :=
  if_neg h

/-- Settles O48: only the instruction event asks for the mode. -/
theorem pausedSessionTicksButDoesNotRun : Obligations.PausedSessionTicksButDoesNotRun := by
  refine ⟨fun s hpaused => ?_, fun s _ => serve_timer s, fun _ => serve_instruction_of_running⟩
  exact serve_instruction_of_not_running (by rw [hpaused]; decide)

/-! ## Commands -/

theorem serve_command_of_cons {s : State} {c : Command} {q : List Command} (h : s.queue = c :: q) :
    serve .command s = serveCommand c { s with queue := q } := by
  simp only [serve, h]

theorem serve_command_pause {s : State} {q : List Command} (h : s.queue = .pause :: q) :
    serve .command s = .next { s with queue := q, mode := s.mode.toggle } := serve_command_of_cons h

theorem serve_command_step_of_paused {s : State} {q : List Command} (h : s.queue = .step :: q) (hm : s.mode = .paused) :
    serve .command s = cycle { s with queue := q } := (serve_command_of_cons h).trans (if_pos hm)

theorem serve_command_step_of_not_paused {s : State} {q : List Command} (h : s.queue = .step :: q)
    (hm : s.mode ≠ .paused) : serve .command s = .next { s with queue := q } :=
  (serve_command_of_cons h).trans (if_neg hm)

theorem serve_command_setKeyMap {s : State} {m : Word} {q : List Command} (h : s.queue = .setKeyMap m :: q) :
    serve .command s = .next { s with queue := q, keys := m } := serve_command_of_cons h

theorem serve_command_close {s : State} {q : List Command} (h : s.queue = .close :: q) :
    serve .command s = .next { s with queue := [], mode := .closed } := serve_command_of_cons h

/-- Settles O49: a Step while Paused is a cycle of the state without that command, so it keeps the mode or faults. -/
theorem commandsAreServedOldestFirst : Obligations.CommandsAreServedOldestFirst := by
  intro s q
  refine ⟨fun hq hm => ?pauseRunning, fun hq hm => ?pausePaused, fun hq hm => ?stepPaused, fun hq hm => ?stepRunning,
    fun _ => serve_command_setKeyMap, serve_command_close⟩
  case pauseRunning => rw [serve_command_pause hq, hm]; rfl
  case pausePaused => rw [serve_command_pause hq, hm]; rfl
  case stepPaused =>
    obtain ⟨t, hnext, hmode⟩ := (endsCycle_cycle { s with queue := q }).keepsMode_or_faults
    rw [serve_command_step_of_paused hq hm]
    exact ⟨rfl, t, hnext, hmode.imp_left (·.trans hm)⟩
  case stepRunning => exact serve_command_step_of_not_paused hq (by rw [hm]; decide)

end Sys2Proof.Machine
end

