-- ==== Sys2Proof/Proofs/Other.lean ====
section
/-! PROOFS. Family 'other': the encoding, each instruction as its fault, its writes and its next PC and the rules over all
instructions that follow from it, the steps of the scheduler, the invariants, and reset, launch and placed words. -/

namespace Sys2Proof

/-! ## Words and their fields -/

/-- Bits 15..12 of a word, by which 30_encoding.md section 3 lists the illegal words. -/
abbrev majorNibble (w : Word) : Nibble := w.extractLsb' 12 4

theorem packAddr_fields (w : Word) : packAddr (majorNibble w) (fieldNnn w) = w :=
  (BitVec.extractLsb'_append_extractLsb'_eq_extractLsb' rfl).trans BitVec.extractLsb'_eq_self

theorem packByte_fields (w : Word) : packByte (majorNibble w) (regBits (fieldX w)) (fieldKk w) = w := by
  have hx : majorNibble w ++ regBits (fieldX w) = w.extractLsb' 8 8 :=
    BitVec.extractLsb'_append_extractLsb'_eq_extractLsb' rfl
  rw [packByte, hx]
  exact (BitVec.extractLsb'_append_extractLsb'_eq_extractLsb' rfl).trans BitVec.extractLsb'_eq_self

/-! ## Rows and the words they match -/

/-- A word that a row matches has the row's value in every field its mask covers. -/
theorem field_eq_of_holds {v m w : Word} {f : Word → Instr} (h : OpcodeRow.holds ⟨v, m, f⟩ w = true) {start len : Nat}
    (hm : m.extractLsb' start len = BitVec.allOnes len) : w.extractLsb' start len = v.extractLsb' start len := by
  have hv : w &&& m = v := beq_iff_eq.1 h
  rw [← hv, BitVec.extractLsb'_and, hm, BitVec.and_allOnes]

/-- Encoding what a row builds from a word that it matches gives the word back: the row ignores no bit. -/
def OpcodeRow.Faithful (r : OpcodeRow) : Prop := ∀ w, r.holds w = true → encode (r.build w) = w

theorem faithful_word {v : Word} {f : Word → Instr} (hf : ∀ w, encode (f w) = v) :
    OpcodeRow.Faithful ⟨v, 0xFFFF, f⟩ := fun w h => (hf w).trans (OpcodeRow.eq_of_full_mask h).symm

/-- A row that fixes the major nibble alone is faithful where the encoder packs that nibble with fields of the word. -/
theorem faithful_major {v : Word} {f : Word → Instr} {pack : Nibble → Word → Word}
    (hpack : ∀ w, pack (majorNibble w) w = w) (hf : ∀ w, encode (f w) = pack (majorNibble v) w) :
    OpcodeRow.Faithful ⟨v, 0xF000, f⟩ := by
  intro w h
  have hop : majorNibble w = majorNibble v := field_eq_of_holds h rfl
  rw [hf, ← hop, hpack]

theorem faithful_addr {v : Word} {f : Word → Instr}
    (hf : ∀ w, encode (f w) = packAddr (majorNibble v) (fieldNnn w)) : OpcodeRow.Faithful ⟨v, 0xF000, f⟩ :=
  faithful_major (pack := fun op w => packAddr op (fieldNnn w)) packAddr_fields hf

theorem faithful_byte {v : Word} {f : Word → Instr}
    (hf : ∀ w, encode (f w) = packByte (majorNibble v) (regBits (fieldX w)) (fieldKk w)) :
    OpcodeRow.Faithful ⟨v, 0xF000, f⟩ :=
  faithful_major (pack := fun op w => packByte op (regBits (fieldX w)) (fieldKk w)) packByte_fields hf

theorem faithful_nibble {v : Word} {f : Word → Instr}
    (hf : ∀ w, encode (f w) = packNibbles (majorNibble v) (regBits (fieldX w)) (regBits (fieldY w)) (fieldN w)) :
    OpcodeRow.Faithful ⟨v, 0xF000, f⟩ :=
  faithful_major (pack := fun op w => packNibbles op (regBits (fieldX w)) (regBits (fieldY w)) (fieldN w))
    packNibbles_fields hf

theorem faithful_regs {v : Word} {f : Word → Instr}
    (hf : ∀ w, encode (f w) = packNibbles (majorNibble v) (regBits (fieldX w)) (regBits (fieldY w)) (fieldN v)) :
    OpcodeRow.Faithful ⟨v, 0xF00F, f⟩ := by
  intro w h
  have hop : majorNibble w = majorNibble v := field_eq_of_holds h rfl
  have hn : fieldN w = fieldN v := field_eq_of_holds h rfl
  rw [hf, ← hop, ← hn]
  exact packNibbles_fields w

theorem faithful_reg {v : Word} {f : Word → Instr}
    (hf : ∀ w, encode (f w) = packByte (majorNibble v) (regBits (fieldX w)) (fieldKk v)) :
    OpcodeRow.Faithful ⟨v, 0xF0FF, f⟩ := by
  intro w h
  have hop : majorNibble w = majorNibble v := field_eq_of_holds h rfl
  have hkk : fieldKk w = fieldKk v := field_eq_of_holds h rfl
  rw [hf, ← hop, ← hkk, packByte_fields]

theorem opcodeRows1_faithful : ∀ r ∈ opcodeRows1, r.Faithful := by
  simp only [opcodeRows1, List.forall_mem_cons]
  exact ⟨faithful_word fun _ => rfl, faithful_word fun _ => rfl, faithful_addr fun _ => rfl,
    faithful_addr fun _ => rfl, faithful_addr fun _ => rfl, faithful_byte fun _ => rfl, faithful_byte fun _ => rfl,
    faithful_regs fun _ => rfl, faithful_byte fun _ => rfl, faithful_byte fun _ => rfl, List.forall_mem_nil _⟩

theorem opcodeRows2_faithful : ∀ r ∈ opcodeRows2, r.Faithful := by
  simp only [opcodeRows2, List.forall_mem_cons]
  exact ⟨faithful_regs fun _ => rfl, faithful_regs fun _ => rfl, faithful_regs fun _ => rfl,
    faithful_regs fun _ => rfl, faithful_regs fun _ => rfl, faithful_regs fun _ => rfl, faithful_regs fun _ => rfl,
    faithful_regs fun _ => rfl, faithful_regs fun _ => rfl, faithful_regs fun _ => rfl, faithful_addr fun _ => rfl,
    faithful_addr fun _ => rfl, faithful_byte fun _ => rfl, faithful_nibble fun _ => rfl, List.forall_mem_nil _⟩

theorem opcodeRows3_faithful : ∀ r ∈ opcodeRows3, r.Faithful := by
  simp only [opcodeRows3, List.forall_mem_cons]
  exact ⟨faithful_reg fun _ => rfl, faithful_reg fun _ => rfl, faithful_reg fun _ => rfl, faithful_reg fun _ => rfl,
    faithful_reg fun _ => rfl, faithful_reg fun _ => rfl, faithful_reg fun _ => rfl, faithful_reg fun _ => rfl,
    faithful_reg fun _ => rfl, faithful_reg fun _ => rfl, faithful_reg fun _ => rfl, List.forall_mem_nil _⟩

theorem opcodeTable_faithful {r : OpcodeRow} (h : r ∈ opcodeTable) : r.Faithful := by
  simp only [opcodeTable, List.mem_append] at h
  rcases h with (h | h) | h
  · exact opcodeRows1_faithful r h
  · exact opcodeRows2_faithful r h
  · exact opcodeRows3_faithful r h

/-- A word that decodes is matched by a row of the map, which builds the instruction. -/
theorem exists_row_of_decode {w : Word} {i : Instr} (h : decode w = some i) :
    ∃ r ∈ opcodeTable, r.holds w = true ∧ r.build w = i := by
  obtain ⟨r, hfind, hbuild⟩ := Option.map_eq_some_iff.1 h
  exact ⟨r, List.mem_of_find?_eq_some hfind, List.find?_some (p := fun r : OpcodeRow => r.holds w) hfind, hbuild⟩

theorem encode_of_decode {w : Word} {i : Instr} (h : decode w = some i) : encode i = w := by
  obtain ⟨r, hmem, hholds, rfl⟩ := exists_row_of_decode h
  exact opcodeTable_faithful hmem w hholds

/-- The two instructions that are not well formed are SYS at the words of CLS and RET (30_encoding.md R74). -/
theorem eq_sys_of_not_wf {i : Instr} (h : ¬ i.wf = true) : i = .sys 0x0E0 ∨ i = .sys 0x0EE := by
  cases i with
  | sys nnn => simpa [Instr.wf, or_iff_not_imp_left] using h
  | _ => exact absurd rfl h

/-- Settles O3: each row ignores no bit, and the two words of the ill-formed SYS decode to CLS and RET. -/
theorem encodeOfDecodedWordIsTheWord : Obligations.EncodeOfDecodedWordIsTheWord := by
  intro w i h
  have hw : encode i = w := encode_of_decode h
  refine ⟨by_contra fun hwf => ?_, hw⟩
  subst hw
  rcases eq_sys_of_not_wf hwf with rfl | rfl
  · exact absurd h (by decide)
  · exact absurd h (by decide)

/-! ## The round trip -/

theorem decode_encode {i : Instr} (h : i.wf = true) : decode (encode i) = some i := by
  cases i with
  | cls => exact Laws.RoundTrip.cls h
  | ret => exact Laws.RoundTrip.ret h
  | sys nnn => exact Laws.RoundTrip.sys nnn h
  | jp nnn => exact Laws.RoundTrip.jp nnn h
  | call nnn => exact Laws.RoundTrip.call nnn h
  | seByte x kk => exact Laws.RoundTrip.seByte x kk h
  | sneByte x kk => exact Laws.RoundTrip.sneByte x kk h
  | seReg x y => exact Laws.RoundTrip.seReg x y h
  | ldByte x kk => exact Laws.RoundTrip.ldByte x kk h
  | addByte x kk => exact Laws.RoundTrip.addByte x kk h
  | ldReg x y => exact Laws.RoundTrip.ldReg x y h
  | orReg x y => exact Laws.RoundTrip.orReg x y h
  | andReg x y => exact Laws.RoundTrip.andReg x y h
  | xorReg x y => exact Laws.RoundTrip.xorReg x y h
  | addReg x y => exact Laws.RoundTrip.addReg x y h
  | sub x y => exact Laws.RoundTrip.sub x y h
  | shr x y => exact Laws.RoundTrip.shr x y h
  | subn x y => exact Laws.RoundTrip.subn x y h
  | shl x y => exact Laws.RoundTrip.shl x y h
  | sneReg x y => exact Laws.RoundTrip.sneReg x y h
  | ldI nnn => exact Laws.RoundTrip.ldI nnn h
  | jpV0 nnn => exact Laws.RoundTrip.jpV0 nnn h
  | rnd x kk => exact Laws.RoundTrip.rnd x kk h
  | drw x y n => exact Laws.RoundTrip.drw x y n h
  | skp x => exact Laws.RoundTrip.skp x h
  | sknp x => exact Laws.RoundTrip.sknp x h
  | ldVxDT x => exact Laws.RoundTrip.ldVxDT x h
  | ldVxK x => exact Laws.RoundTrip.ldVxK x h
  | ldDTVx x => exact Laws.RoundTrip.ldDTVx x h
  | ldSTVx x => exact Laws.RoundTrip.ldSTVx x h
  | addI x => exact Laws.RoundTrip.addI x h
  | ldF x => exact Laws.RoundTrip.ldF x h
  | ldB x => exact Laws.RoundTrip.ldB x h
  | storeRegs x => exact Laws.RoundTrip.storeRegs x h
  | loadRegs x => exact Laws.RoundTrip.loadRegs x h

/-- The first instruction of two bytes of a legal word and any bytes after them. -/
theorem decodeBytes_of_decode {w : Word} {i : Instr} (h : decode w = some i) (rest : List Byte) :
    decodeBytes ([highByte w, lowByte w] ++ rest) = .instr i rest := by
  simp [decodeBytes, h]

/-- Settles O2: one round trip per constructor, and the two bytes of a word make the word again. -/
theorem decodeOfEncodeIsTheInstruction : Obligations.DecodeOfEncodeIsTheInstruction := fun _ hwf =>
  ⟨decode_encode hwf, decodeBytes_of_decode (decode_encode hwf)⟩

/-- Settles O1: each word is decoded by running the map. -/
theorem writtenWordsDecode : Obligations.WrittenWordsDecode := by
  unfold Obligations.WrittenWordsDecode
  decide

/-! ## Overlapping rows -/

/-- Where two rows match one word, each has its value in the bits both masks cover. -/
theorem OpcodeRow.agree_of_holds {r r' : OpcodeRow} {w : Word} (h : r.holds w = true) (h' : r'.holds w = true) :
    r.value &&& r'.mask = r'.value &&& r.mask := by
  have hv : w &&& r.mask = r.value := beq_iff_eq.1 h
  have hv' : w &&& r'.mask = r'.value := beq_iff_eq.1 h'
  rw [← hv, ← hv', BitVec.and_assoc, BitVec.and_assoc, BitVec.and_comm r.mask]

/-- Rows `j` and `k` of the map have the same bits where both their masks cover them, so that some word may match
both. -/
def rowsAgree (j k : Nat) : Bool :=
  opcodeTable[j]?.any fun r => opcodeTable[k]?.any fun r' => r.value &&& r'.mask == r'.value &&& r.mask

theorem rowsAgree_of_holds {w : Word} {j k : Nat} (hj : (opcodeTable[j]?.any fun r => r.holds w) = true)
    (hk : (opcodeTable[k]?.any fun r => r.holds w) = true) : rowsAgree j k = true := by
  obtain ⟨r, hr, hw⟩ := (Option.any_eq_true ..).1 hj
  obtain ⟨r', hr', hw'⟩ := (Option.any_eq_true ..).1 hk
  simp only [rowsAgree, hr, hr', Option.any_some, beq_iff_eq]
  exact OpcodeRow.agree_of_holds hw hw'

theorem rowsAgree_only_of_sys : ∀ j k : Fin 35, j < k → rowsAgree j k = true → (j = 0 ∨ j = 1) ∧ k = 2 := by
  decide

theorem decode_packAddr_zero (nnn : Addr) : decode (packAddr 0x0 nnn) =
    if nnn = 0x0E0 then some .cls else if nnn = 0x0EE then some .ret else some (.sys nnn) := by
  split
  next h => subst h; decide
  next hcls =>
    split
    next h => subst h; decide
    next hret =>
      have hwf : (Instr.sys nnn).wf = true := Bool.and_eq_true_iff.2 ⟨bne_iff_ne.2 hcls, bne_iff_ne.2 hret⟩
      exact Laws.RoundTrip.sys nnn hwf

/-- Settles O5: where two rows match one word they agree on the bits both cover, which over the 35 rows happens only
between SYS and the two rows before it. -/
theorem clsAndRetComeBeforeSys : Obligations.ClsAndRetComeBeforeSys :=
  ⟨decode_packAddr_zero, fun _ j k hjk hj hk => rowsAgree_only_of_sys j k hjk (rowsAgree_of_holds hj hk)⟩

/-! ## Illegal words -/

/-- The low byte of a word, nibble by nibble. -/
theorem fieldKk_packNibbles_eq_iff {a b c d : Nibble} {kk : Byte} :
    fieldKk (packNibbles a b c d) = kk ↔ c = kk.extractLsb' 4 4 ∧ d = kk.extractLsb' 0 4 := by
  constructor
  · rintro rfl
    simp only [fieldKk]
    rw [BitVec.extractLsb'_extractLsb'_of_le (by decide), BitVec.extractLsb'_extractLsb'_of_le (by decide)]
    exact ⟨(y_packNibbles a b c d).symm, (n_packNibbles a b c d).symm⟩
  · rintro ⟨rfl, rfl⟩
    rw [← packByte_eq, fieldKk_packByte]

@[simp] theorem nibble_and_fifteen (a : Nibble) : a &&& 15#4 = a := BitVec.and_allOnes

/-- Under the major nibble 8 the low nibbles of no row are 8 to D and F. -/
theorem low_nibble_of_no_alu_row (d : Nibble) :
    d ∉ ([0x0, 0x1, 0x2, 0x3, 0x4, 0x5, 0x6, 0x7, 0xE] : List Nibble) ↔
      d ∈ ([0x8, 0x9, 0xA, 0xB, 0xC, 0xD, 0xF] : List Nibble) := by
  revert d
  decide

/-- Rows 1 to 10; the words of CLS and RET are among those of SYS. -/
theorem no_row1_iff (a b c d : Nibble) : (∀ r ∈ opcodeRows1, ¬ r.holds (packNibbles a b c d) = true) ↔
    a ∉ ([0x0, 0x1, 0x2, 0x3, 0x4] : List Nibble) ∧ (a = 0x5 → d ≠ 0) ∧ a ∉ ([0x6, 0x7] : List Nibble) := by
  by_cases hsys : a = 0#4
  · simp [opcodeRows1, holds_packNibbles, hsys]
  · simp [opcodeRows1, holds_packNibbles, hsys, and_assoc]

/-- Rows 11 to 24. -/
theorem no_row2_iff (a b c d : Nibble) : (∀ r ∈ opcodeRows2, ¬ r.holds (packNibbles a b c d) = true) ↔
    (a = 0x8 → d ∈ ([0x8, 0x9, 0xA, 0xB, 0xC, 0xD, 0xF] : List Nibble)) ∧ (a = 0x9 → d ≠ 0) ∧
    a ∉ ([0xA, 0xB, 0xC, 0xD] : List Nibble) := by
  rw [← low_nibble_of_no_alu_row]
  simp [opcodeRows2, holds_packNibbles, imp_and, and_assoc]

/-- Rows 25 to 35. -/
theorem no_row3_iff (a b c d : Nibble) : (∀ r ∈ opcodeRows3, ¬ r.holds (packNibbles a b c d) = true) ↔
    (a = 0xE → fieldKk (packNibbles a b c d) ∉ ([0x9E, 0xA1] : List Byte)) ∧
    (a = 0xF → fieldKk (packNibbles a b c d) ∉
      ([0x07, 0x0A, 0x15, 0x18, 0x1E, 0x29, 0x33, 0x55, 0x65] : List Byte)) := by
  simp [opcodeRows3, holds_packNibbles, fieldKk_packNibbles_eq_iff, imp_and, and_assoc]

/-- Settles O4: a word is illegal iff no row of the three parts of the map matches it; each part asks for some major
nibbles alone, so the parts make the list one major nibble after another. -/
theorem illegalWordsAreTheListedOnes : Obligations.IllegalWordsAreTheListedOnes := by
  intro w
  rw [← packNibbles_fields w, op_packNibbles, fieldN_packNibbles, decode_eq_find, Option.map_eq_none_iff,
    List.find?_eq_none, List.forall_mem_append, List.forall_mem_append, no_row1_iff, no_row2_iff, no_row3_iff]
  generalize w.extractLsb' 12 4 = a
  obtain ⟨⟨n, hn⟩⟩ := a
  interval_cases n <;> simp

end Sys2Proof

namespace Sys2Proof.Machine

open Sys2Proof.Safety

/-! ## An instruction as its fault, its writes and its next PC -/

/-- The fault of an access to `len` bytes at I, if it is out of range (20_memory.md R52). -/
def rangeFault (s : State) (len : Nat) : Option SessionFault :=
  (outOfRange s.indexAddr len).map fun a => .boundsHazard (.memoryRange a)

/-- The fault of a key test of `V[x]`, if KEY_INDEX_POLICY makes the index a hazard (44_timers_keys.md R188). -/
def keyFault (s : State) (x : Reg) : Option SessionFault :=
  if keyPressed s.cfg.keyIndexPolicy s.keys (s.reg x) = none then some (.boundsHazard (.keyIndex (s.reg x))) else none

/-- The fault an instruction raises instead of completing, if any (60_exceptions.md R200). -/
def faultOf (i : Instr) (s : State) : Option SessionFault :=
  match i with
  | .call _ => if s.SP.val = 32 then some (.boundsHazard .stackOverflow) else none
  | .ret => if s.SP.val = 0 then some (.boundsHazard .stackUnderflow) else none
  | .drw _ _ n => rangeFault s n.toNat
  | .ldB _ => rangeFault s 3
  | .storeRegs x | .loadRegs x => rangeFault s (dumpCount x)
  | .skp x | .sknp x => keyFault s x
  | _ => none

/-- The state with what the body of a completing instruction writes, before the commit of its cycle. -/
def written (i : Instr) (s : State) : State :=
  match i with
  | .cls => s.clearDisplay
  | .ret => (s.pop.map Prod.snd).getD s
  | .call _ => (s.push (s.PC + 2)).getD s
  | .ldByte x kk => s.setReg x kk
  | .addByte x kk => s.setReg x (sumOf (s.reg x) kk)
  | .ldReg x y => s.setReg x (s.reg y)
  | .orReg x y => s.writeResultAndFlag x (s.reg x ||| s.reg y) 0
  | .andReg x y => s.writeResultAndFlag x (s.reg x &&& s.reg y) 0
  | .xorReg x y => s.writeResultAndFlag x (s.reg x ^^^ s.reg y) 0
  | .addReg x y => s.writeResultAndFlag x (sumOf (s.reg x) (s.reg y)) (carryOf (s.reg x) (s.reg y))
  | .sub x y => s.writeResultAndFlag x (differenceOf (s.reg x) (s.reg y)) (notBorrowOf (s.reg x) (s.reg y))
  | .shr x y => s.writeResultAndFlag x (shiftedRight (s.reg y)) (lowBitOf (s.reg y))
  | .subn x y => s.writeResultAndFlag x (differenceOf (s.reg y) (s.reg x)) (notBorrowOf (s.reg y) (s.reg x))
  | .shl x y => s.writeResultAndFlag x (shiftedLeft (s.reg y)) (highBitOf (s.reg y))
  | .rnd x kk => { s.setReg x (Config.draw8 s.drawCount &&& kk) with drawCount := s.drawCount + 1 }
  | .ldI nnn => s.setIndex (targetOf nnn)
  | .addI x => s.setIndex (s.indexPlus (s.reg x).toNat)
  | .ldF x => s.setIndex (glyphAddr (s.reg x))
  | .drw x y n => (s.setDisplay (s.drawn x y n).1).setReg flagReg (flagByte (s.drawn x y n).2)
  | .ldVxDT x => s.setReg x s.DT
  | .ldVxK x => if s.releasedKeys = 0 then s else s.setReg x (trunc8 (lowestKey s.releasedKeys))
  | .ldDTVx x => s.setDelay (s.reg x)
  | .ldSTVx x => s.setSound (s.reg x)
  | .ldB x => s.storeBytes s.indexAddr (decimalDigits (s.reg x))
  | .storeRegs x => (s.storeBytes s.indexAddr (s.regsUpTo x)).setIndex (s.indexPlus (dumpCount x))
  | .loadRegs x => (s.setRegsFrom 0 (s.bytesAt s.indexAddr (dumpCount x))).setIndex (s.indexPlus (dumpCount x))
  | .sys _ | .jp _ | .jpV0 _ | .seByte _ _ | .sneByte _ _ | .seReg _ _ | .sneReg _ _ | .skp _ | .sknp _ => s

/-- The next PC of a completing instruction (40_control.md section 5). -/
def nextOf (i : Instr) (s : State) : Word :=
  match i with
  | .jp nnn | .call nnn => targetOf nnn
  | .ret => (s.stack[s.SP.val - 1]?).getD 0
  | .jpV0 nnn => offsetTarget nnn (s.reg 0)
  | .seByte x kk => if s.reg x = kk then s.PC + 4 else s.PC + 2
  | .sneByte x kk => if s.reg x = kk then s.PC + 2 else s.PC + 4
  | .seReg x y => if s.reg x = s.reg y then s.PC + 4 else s.PC + 2
  | .sneReg x y => if s.reg x = s.reg y then s.PC + 2 else s.PC + 4
  | .skp x => if keyPressed s.cfg.keyIndexPolicy s.keys (s.reg x) = some true then s.PC + 4 else s.PC + 2
  | .sknp x => if keyPressed s.cfg.keyIndexPolicy s.keys (s.reg x) = some false then s.PC + 4 else s.PC + 2
  | .ldVxK _ => if s.releasedKeys = 0 then s.PC else s.PC + 2
  | _ => s.PC + 2

/-- The end of the cycle of an instruction: its fault, or the commit of its writes at its next PC. -/
def resultOf (i : Instr) (s : State) : State :=
  (faultOf i s).elim ((written i s).retire (nextOf i s)) s.enterFault

theorem resultOf_of_some {i : Instr} {s : State} {f : SessionFault} (h : faultOf i s = some f) :
    resultOf i s = s.enterFault f := by
  rw [resultOf, h, Option.elim_some]

theorem resultOf_of_none {i : Instr} {s : State} (h : faultOf i s = none) :
    resultOf i s = (written i s).retire (nextOf i s) := by
  rw [resultOf, h, Option.elim_none]

/-- An access at I before the end `u` of a cycle: its fault entered where it is out of range, else `u`. -/
theorem checked_indexAddr_next (s : State) (len : Nat) (u : State) :
    checked s s.indexAddr len (.next u) = .next ((rangeFault s len).elim u s.enterFault) := by
  unfold checked rangeFault
  cases outOfRange s.indexAddr len <;> rfl

theorem exec_call_eq (nnn : Addr) (s : State) : exec (.call nnn) s = .next (resultOf (.call nnn) s) := by
  rcases s.push_cases (s.PC + 2) with ⟨hfull, hpush⟩ | ⟨hfree, hpush⟩
  · have hfault : faultOf (.call nnn) s = some (.boundsHazard .stackOverflow) := if_pos (by rw [hfull]; rfl)
    rw [exec_call_of_full hpush, resultOf_of_some hfault]
    rfl
  · have hfault : faultOf (.call nnn) s = none := if_neg hfree.ne
    rw [exec_call_of_push hpush, resultOf_of_none hfault, written, hpush]
    rfl

theorem exec_ret_eq (s : State) : exec .ret s = .next (resultOf .ret s) := by
  rcases s.pop_cases with ⟨hempty, hpop⟩ | ⟨hused, hpop⟩
  · have hfault : faultOf .ret s = some (.boundsHazard .stackUnderflow) := if_pos (by rw [hempty]; rfl)
    rw [exec_ret_of_empty hpop, resultOf_of_some hfault]
    rfl
  · have hfault : faultOf .ret s = none := if_neg hused.ne'
    rw [exec_ret_of_pop hpop, resultOf_of_none hfault, written, hpop, nextOf, Vector.getElem?_eq_getElem]
    rfl

theorem exec_skp_eq (x : Reg) (s : State) : exec (.skp x) s = .next (resultOf (.skp x) s) := by
  cases hkey : keyPressed s.cfg.keyIndexPolicy s.keys (s.reg x) with
  | none =>
    have hfault : faultOf (.skp x) s = some (.boundsHazard (.keyIndex (s.reg x))) := if_pos hkey
    rw [exec_skp_of_none hkey, resultOf_of_some hfault]
    rfl
  | some p =>
    have hfault : faultOf (.skp x) s = none := if_neg (by simp [hkey])
    rw [exec_skp_of_some hkey, skipIf_eq, resultOf_of_none hfault]
    simp [written, nextOf, hkey]

theorem exec_sknp_eq (x : Reg) (s : State) : exec (.sknp x) s = .next (resultOf (.sknp x) s) := by
  cases hkey : keyPressed s.cfg.keyIndexPolicy s.keys (s.reg x) with
  | none =>
    have hfault : faultOf (.sknp x) s = some (.boundsHazard (.keyIndex (s.reg x))) := if_pos hkey
    rw [exec_sknp_of_none hkey, resultOf_of_some hfault]
    rfl
  | some p =>
    have hfault : faultOf (.sknp x) s = none := if_neg (by simp [hkey])
    rw [exec_sknp_of_some hkey, skipIf_eq, resultOf_of_none hfault]
    simp [written, nextOf, hkey]

theorem exec_ldVxK_eq (x : Reg) (s : State) : exec (.ldVxK x) s = .next (resultOf (.ldVxK x) s) := by
  rw [resultOf_of_none rfl, written, nextOf]
  by_cases h : s.releasedKeys = 0
  · rw [exec_ldVxK_of_none h, if_pos h, if_pos h]
  · rw [exec_ldVxK_of_released h, complete_eq, if_neg h, if_neg h]

/-- Every instruction answers a next state: its fault entered, or its writes committed at its next PC
(40_control.md R100, 60_exceptions.md R204). -/
theorem exec_eq (i : Instr) (s : State) : exec i s = .next (resultOf i s) := by
  cases i with
  | cls | sys | ldByte | addByte | ldReg | orReg | andReg | xorReg | addReg | sub | shr | subn | shl | ldI | addI | ldF
  | rnd | ldVxDT | ldDTVx | ldSTVx => exact complete_eq s _
  | jp | jpV0 => rfl
  | seByte x kk => rw [exec_seByte, skipIf_eq]; simp [resultOf, faultOf, written, nextOf]
  | sneByte x kk => rw [exec_sneByte, skipIf_eq]; simp [resultOf, faultOf, written, nextOf]
  | seReg x y => rw [exec_seReg, skipIf_eq]; simp [resultOf, faultOf, written, nextOf]
  | sneReg x y => rw [exec_sneReg, skipIf_eq]; simp [resultOf, faultOf, written, nextOf]
  | call nnn => exact exec_call_eq nnn s
  | ret => exact exec_ret_eq s
  | skp x => exact exec_skp_eq x s
  | sknp x => exact exec_sknp_eq x s
  | ldVxK x => exact exec_ldVxK_eq x s
  | ldB x => rw [exec_ldB, complete_eq]; exact checked_indexAddr_next s _ _
  | storeRegs x => rw [exec_storeRegs, complete_eq]; exact checked_indexAddr_next s _ _
  | loadRegs x => rw [exec_loadRegs, complete_eq]; exact checked_indexAddr_next s _ _
  | drw x y n => rw [exec_drw, complete_eq]; exact checked_indexAddr_next s _ _

/-- Settles O38: the next state is the one `resultOf` gives. -/
theorem everyInstructionAnswersANextState : Obligations.EveryInstructionAnswersANextState := fun i s =>
  ⟨resultOf i s, exec_eq i s⟩

/-- How an instruction ends: in its fault, or with its writes committed at its next PC. -/
theorem exec_cases {i : Instr} {s t : State} (h : exec i s = .next t) :
    (∃ f, faultOf i s = some f ∧ t = s.enterFault f) ∨
    (faultOf i s = none ∧ t = (written i s).retire (nextOf i s)) := by
  obtain rfl : resultOf i s = t := Host.Outcome.next.inj ((exec_eq i s).symm.trans h)
  cases hf : faultOf i s with
  | some f => exact .inl ⟨f, rfl, resultOf_of_some hf⟩
  | none => exact .inr ⟨rfl, resultOf_of_none hf⟩

/-! ## What an instruction writes -/

theorem written_call_frame (nnn : Addr) (s : State) : written (.call nnn) s =
    { s with stack := (written (.call nnn) s).stack, SP := (written (.call nnn) s).SP } := by
  rcases s.push_cases (s.PC + 2) with ⟨-, hpush⟩ | ⟨_, hpush⟩ <;> rw [written, hpush] <;> rfl

theorem written_ret_frame (s : State) : written .ret s = { s with SP := (written .ret s).SP } := by
  rcases s.pop_cases with ⟨-, hpop⟩ | ⟨_, hpop⟩ <;> rw [written, hpop] <;> rfl

theorem written_ldVxK_frame (x : Reg) (s : State) :
    written (.ldVxK x) s = { s with V := (written (.ldVxK x) s).V } := by
  rw [written]
  split <;> rfl

theorem written_loadRegs_frame (x : Reg) (s : State) : written (.loadRegs x) s =
    { s with V := (written (.loadRegs x) s).V, I := (written (.loadRegs x) s).I } := by
  rw [written, State.setRegsFrom_eq]
  rfl

/-- Settles O40: a fault writes none of these fields, and each body writes only those that its update names. -/
theorem onlyListedInstructionsWriteTheRest : Obligations.OnlyListedInstructionsWriteTheRest := by
  intro i s t h
  rcases exec_cases h with ⟨f, -, rfl⟩ | ⟨-, rfl⟩
  case inl => simp
  cases i with
  | call nnn => rw [written_call_frame]; simp
  | ret => rw [written_ret_frame]; simp
  | ldVxK x => rw [written_ldVxK_frame]; simp
  | loadRegs x => rw [written_loadRegs_frame]; simp
  | orReg | andReg | xorReg | addReg | sub | shr | subn | shl =>
    rw [written, State.writeResultAndFlag_eq]; simp
  | _ => simp [written]

/-! ## Which registers -/

theorem eq_of_reg_setReg_ne {s : State} {x r : Reg} {b : Byte} (h : (s.setReg x b).reg r ≠ s.reg r) : r = x :=
  by_contra fun hx => h (s.reg_setReg_other b hx)

theorem eq_of_reg_writeResultAndFlag_ne {s : State} {x r : Reg} {v f : Byte}
    (h : (s.writeResultAndFlag x v f).reg r ≠ s.reg r) : x = r ∨ r = 15 := by
  by_contra! hne
  obtain ⟨hx, hflag⟩ : r ≠ x ∧ r ≠ flagReg := ⟨hne.1.symm, hne.2⟩
  exact h (by rw [State.reg_writeResultAndFlag, if_neg hflag, if_neg hx])

theorem le_of_reg_written_loadRegs_ne {s : State} {x r : Reg} (h : (written (.loadRegs x) s).reg r ≠ s.reg r) : r ≤ x :=
  by_contra fun hgt => h ((s.reg_setRegsFrom_bytesAt x r).trans (if_neg hgt))

/-- Settles O39: a register that differs is the one of a `setReg`, one of the two of a result and a flag, or in the
range of a load; every other body leaves V alone. -/
theorem onlyListedInstructionsWriteRegisters : Obligations.OnlyListedInstructionsWriteRegisters := by
  intro i s t r h hne
  rcases exec_cases h with ⟨f, -, rfl⟩ | ⟨-, rfl⟩
  case inl => exact absurd rfl hne
  replace hne : (written i s).reg r ≠ s.reg r := hne
  cases i with
  | ldByte x _ | addByte x _ | rnd x _ | ldReg x _ | ldVxDT x =>
    have hx : r = x := eq_of_reg_setReg_ne hne
    simp [hx]
  | drw x y n =>
    have hflag : r = 15 := eq_of_reg_setReg_ne hne
    simp [hflag]
  | ldVxK x =>
    rw [written] at hne
    split at hne
    · exact absurd rfl hne
    · simp [eq_of_reg_setReg_ne hne]
  | orReg x _ | andReg x _ | xorReg x _ | addReg x _ | sub x _ | shr x _ | subn x _ | shl x _ =>
    have hx : x = r ∨ r = 15 := eq_of_reg_writeResultAndFlag_ne hne
    simpa using hx
  | loadRegs x => simp [le_of_reg_written_loadRegs_ne hne]
  | call nnn => rw [written_call_frame] at hne; exact absurd rfl hne
  | ret => rw [written_ret_frame] at hne; exact absurd rfl hne
  | _ => exact absurd rfl hne

/-! ## Live ends and the next PC -/

theorem mode_ne_faulted {s : State} (h : s.mode.ended = false) (f : SessionFault) : s.mode ≠ .faulted f := by
  intro hm
  rw [hm] at h
  exact Bool.noConfusion h

theorem offsetTarget_eq (nnn : Addr) (v : Byte) : offsetTarget nnn v = nnn.setWidth 16 + v.setWidth 16 := by
  simp [offsetTarget, trunc16, BitVec.ofNat_add]

/-- Settles O42: a cycle that ends live is committed, at the next PC of its instruction. -/
theorem eachInstructionAdvancesPcAsListed : Obligations.EachInstructionAdvancesPcAsListed := by
  intro i s t _ h hlive
  rcases exec_cases h with ⟨f, -, rfl⟩ | ⟨-, rfl⟩
  case inl => exact absurd rfl (mode_ne_faulted hlive f)
  cases i with
  | jpV0 nnn => exact offsetTarget_eq nnn _
  | _ => rfl

/-! ## The causes of faults -/

theorem written_mode (i : Instr) (s : State) : (written i s).mode = s.mode := by
  cases i with
  | call nnn => rw [written_call_frame]
  | ret => rw [written_ret_frame]
  | ldVxK x => rw [written_ldVxK_frame]
  | loadRegs x => rw [written_loadRegs_frame]
  | orReg | andReg | xorReg | addReg | sub | shr | subn | shl => rw [written, State.writeResultAndFlag_eq]
  | _ => rfl

theorem rangeFault_eq_some {s : State} {len : Nat} {f : SessionFault} (h : rangeFault s len = some f) :
    f = .boundsHazard (.memoryRange (max s.indexAddr memSize)) ∧ len ≠ 0 ∧ memSize < s.indexAddr + len := by
  obtain ⟨a, ha, rfl⟩ := Option.map_eq_some_iff.1 h
  obtain ⟨hpast, hlen, rfl⟩ := outOfRange_eq_some.1 ha
  exact ⟨rfl, hlen, hpast⟩

theorem keyPressed_eq_none {policy : KeyIndexPolicy} {sample : Word} {k : Byte}
    (h : keyPressed policy sample k = none) : policy = .fault ∧ 16 ≤ k.toNat := by
  by_cases hk : k.toNat < 16
  · simp [keyPressed, hk] at h
  · cases policy with
    | fault => exact ⟨rfl, Nat.not_lt.1 hk⟩
    | notPressed | lowNibble => simp [keyPressed, hk] at h

theorem keyFault_eq_some {s : State} {x : Reg} {f : SessionFault} (h : keyFault s x = some f) :
    s.cfg.keyIndexPolicy = .fault ∧ 16 ≤ (s.reg x).toNat ∧ f = .boundsHazard (.keyIndex (s.reg x)) := by
  obtain ⟨hnone, hf⟩ := Option.ite_none_right_eq_some.1 h
  obtain ⟨hpolicy, hk⟩ := keyPressed_eq_none hnone
  exact ⟨hpolicy, hk, (Option.some.inj hf).symm⟩

/-- Settles O37: a live session that ends faulted has raised the fault of its instruction, since no body writes the
mode. -/
theorem eachFaultHasItsListedCause : Obligations.EachFaultHasItsListedCause := by
  intro i s t f hlive h hmode
  rcases exec_cases h with ⟨f', hf, rfl⟩ | ⟨-, rfl⟩
  case inr => exact absurd ((written_mode i s).symm.trans hmode) (mode_ne_faulted hlive f)
  obtain rfl : f' = f := Mode.faulted.inj hmode
  cases i with
  | call nnn =>
    obtain ⟨hfull, hsome⟩ := Option.ite_none_right_eq_some.1 hf
    obtain rfl := Option.some.inj hsome
    exact .inl ⟨rfl, hfull, nnn, rfl⟩
  | ret =>
    obtain ⟨hempty, hsome⟩ := Option.ite_none_right_eq_some.1 hf
    obtain rfl := Option.some.inj hsome
    exact .inr (.inl ⟨rfl, hempty, rfl⟩)
  | drw x y n =>
    obtain ⟨rfl, hlen, hpast⟩ := rangeFault_eq_some hf
    have hn : n ≠ 0 := fun h0 => hlen (congrArg BitVec.toNat h0)
    exact .inr (.inr (.inl ⟨rfl, x, .inl ⟨y, n, rfl, hn, hpast⟩⟩))
  | ldB x =>
    obtain ⟨rfl, -, hpast⟩ := rangeFault_eq_some hf
    exact .inr (.inr (.inl ⟨rfl, x, .inr (.inl ⟨rfl, Nat.le_of_lt_succ hpast⟩)⟩))
  | storeRegs x =>
    obtain ⟨rfl, -, hpast⟩ := rangeFault_eq_some hf
    exact .inr (.inr (.inl ⟨rfl, x, .inr (.inr ⟨.inl rfl, Nat.le_of_lt_succ hpast⟩)⟩))
  | loadRegs x =>
    obtain ⟨rfl, -, hpast⟩ := rangeFault_eq_some hf
    exact .inr (.inr (.inl ⟨rfl, x, .inr (.inr ⟨.inr rfl, Nat.le_of_lt_succ hpast⟩)⟩))
  | skp x =>
    obtain ⟨hpolicy, hk, rfl⟩ := keyFault_eq_some hf
    exact .inr (.inr (.inr ⟨hpolicy, x, .inl rfl, hk, rfl⟩))
  | sknp x =>
    obtain ⟨hpolicy, hk, rfl⟩ := keyFault_eq_some hf
    exact .inr (.inr (.inr ⟨hpolicy, x, .inr rfl, hk, rfl⟩))
  | _ => exact absurd hf (by simp [faultOf])

/-! ## What a cycle leaves to the host and the scheduler -/

/-- A cycle leaves keys, the queue, the parameters, the agenda, the count of choices and the last snapshot alone. -/
theorem EndsCycle.frame {s t : State} (h : EndsCycle s (.next t)) : t = { s with
    V := t.V, I := t.I, PC := t.PC, SP := t.SP, stack := t.stack, DT := t.DT, ST := t.ST, mem := t.mem, fb := t.fb
    dirty := t.dirty, prevKeys := t.prevKeys, mode := t.mode, drawCount := t.drawCount } := by
  cases h with
  | @completes u next hbody => rw [BodyWrites] at hbody; rw [hbody]; rfl
  | faults f => rfl

/-- A cycle of a live session stores its sample and keeps the mode, or changes the mode alone (decisions D10, D14). -/
theorem EndsCycle.live_or_faulted {s t : State} (h : EndsCycle s (.next t)) :
    (t.mode = s.mode ∧ t.prevKeys = s.keys) ∨ ∃ f, t = s.enterFault f := by
  cases h with
  | @completes u next hbody =>
    have hkeys : u.keys = s.keys := by rw [BodyWrites] at hbody; rw [hbody]
    exact .inl ⟨hbody.mode_eq, hkeys⟩
  | faults f => exact .inr ⟨f, rfl⟩

theorem endsCycle_of_exec {i : Instr} {s t : State} (h : exec i s = .next t) : EndsCycle s (.next t) :=
  h ▸ endsCycle_exec i s

theorem endsCycle_of_cycle {s t : State} (h : cycle s = .next t) : EndsCycle s (.next t) :=
  h ▸ endsCycle_cycle s

/-- Settles O41: how every instruction ends its cycle says what it leaves unchanged. -/
theorem noInstructionTouchesHostState : Obligations.NoInstructionTouchesHostState := by
  intro i s t h
  have hframe := (endsCycle_of_exec h).frame
  refine ⟨by rw [hframe], by rw [hframe], by rw [hframe], by rw [hframe], by rw [hframe], by rw [hframe], ?mode⟩
  rcases (endsCycle_of_exec h).live_or_faulted with ⟨hmode, -⟩ | ⟨f, rfl⟩
  · exact .inl hmode
  · exact .inr ⟨f, rfl⟩

/-- Settles O36: of the two ways a cycle ends, the one that keeps a live mode is not faulted. -/
theorem faultingCycleCommitsNothing : Obligations.FaultingCycleCommitsNothing := by
  intro s t f hlive h hmode
  rcases (endsCycle_of_cycle h).live_or_faulted with ⟨hkept, -⟩ | ⟨f', rfl⟩
  · exact absurd (hkept.symm.trans hmode) (mode_ne_faulted hlive f)
  · obtain rfl : f' = f := Mode.faulted.inj hmode
    rfl

theorem serveCommand_prevKeys {c : Command} {s t : State} (hc : c ≠ .step) (h : serveCommand c s = .next t) :
    t.prevKeys = s.prevKeys := by
  cases c with
  | step => exact absurd rfl hc
  | pause | setKeyMap | close => obtain rfl := Host.Outcome.next.inj h; rfl

theorem serve_prevKeys {e : Event} {s t : State} (hi : e ≠ .instruction) (hc : e ≠ .command) (h : serve e s = .next t) :
    t.prevKeys = s.prevKeys := by
  cases e with
  | instruction => exact absurd rfl hi
  | command => exact absurd rfl hc
  | timer | enqueue | writeKeys | snapshot => obtain rfl := Host.Outcome.next.inj h; rfl

/-- Settles O43: a cycle that ends live has stored its sample; the other events and commands are updates that leave
`prevKeys` alone. -/
theorem prevKeysIsTheLastSample : Obligations.PrevKeysIsTheLastSample := by
  refine ⟨fun s t _ h hlive => ?cycle, fun _ _ _ hi hc h => serve_prevKeys hi hc h,
    fun _ _ _ hc h => serveCommand_prevKeys hc h⟩
  rcases (endsCycle_of_cycle h).live_or_faulted with ⟨-, hsample⟩ | ⟨f, rfl⟩
  · exact hsample
  · exact absurd rfl (mode_ne_faulted hlive f)

/-! ## What no instruction reads -/

/-- The state with other values of what a session puts out: the sound timer, the bitmap and the dirty flag. -/
def State.withOutputs (s : State) (b : Byte) (fb : FrameBuffer) (d : Bool) : State :=
  { s with ST := b, fb := fb, dirty := d }

/-- Where a change `g` of the state passes through the fault, the next PC and the body of an instruction, it passes
through its cycle. -/
theorem exec_of_commutes {i : Instr} {s t : State} {g : State → State} (hfault : faultOf i (g s) = faultOf i s)
    (hnext : nextOf i (g s) = nextOf i s) (hbody : written i (g s) = g (written i s))
    (henter : ∀ f, (g s).enterFault f = g (s.enterFault f)) (hretire : ∀ u w, (g u).retire w = g (u.retire w))
    (h : exec i s = .next t) : exec i (g s) = .next (g t) := by
  rw [exec_eq]
  rcases exec_cases h with ⟨f, hf, rfl⟩ | ⟨hf, rfl⟩
  · rw [resultOf_of_some (hfault.trans hf), henter]
  · rw [resultOf_of_none (hfault.trans hf), hnext, hbody, hretire]

section

variable (s : State) (b : Byte) (fb : FrameBuffer) (d : Bool)

theorem faultOf_withOutputs (i : Instr) : faultOf i (s.withOutputs b fb d) = faultOf i s := by
  cases i <;> rfl

theorem nextOf_withOutputs (i : Instr) : nextOf i (s.withOutputs b fb d) = nextOf i s := by
  cases i <;> rfl

theorem push_withOutputs (a : Word) :
    (s.withOutputs b fb d).push a = (s.push a).map fun t => t.withOutputs b fb d := by
  by_cases h : s.SP.val < 32 <;> simp [State.push, State.withOutputs, h]

theorem pop_withOutputs :
    (s.withOutputs b fb d).pop.map Prod.snd = (s.pop.map Prod.snd).map fun t => t.withOutputs b fb d := by
  by_cases h : 0 < s.SP.val <;> simp [State.pop, State.withOutputs, h]

theorem setRegsFrom_withOutputs (k : Nat) (bs : List Byte) :
    (s.withOutputs b fb d).setRegsFrom k bs = (s.setRegsFrom k bs).withOutputs b fb d := by
  induction bs generalizing s k with
  | nil => rfl
  | cons c bs ih => exact ih { s with V := s.V.setIfInBounds k c } (k + 1)

theorem writeResultAndFlag_withOutputs (x : Reg) (v f : Byte) :
    (s.withOutputs b fb d).writeResultAndFlag x v f = (s.writeResultAndFlag x v f).withOutputs b fb d := by
  simp only [State.writeResultAndFlag, State.withOutputs]
  cases s.cfg.vfWriteOrder <;> rfl

/-- The body of an instruction that writes no output is the same over any outputs. -/
theorem written_withOutputs {i : Instr} (hcls : i ≠ .cls) (hdrw : ∀ x y n, i ≠ .drw x y n)
    (hsound : ∀ x, i ≠ .ldSTVx x) : written i (s.withOutputs b fb d) = (written i s).withOutputs b fb d := by
  cases i with
  | cls => exact absurd rfl hcls
  | drw x y n => exact absurd rfl (hdrw x y n)
  | ldSTVx x => exact absurd rfl (hsound x)
  | call nnn =>
    rw [written, push_withOutputs]
    exact Option.getD_map (fun t : State => t.withOutputs b fb d) s _
  | ret =>
    rw [written, pop_withOutputs]
    exact Option.getD_map (fun t : State => t.withOutputs b fb d) s _
  | orReg | andReg | xorReg | addReg | sub | shr | subn | shl => exact writeResultAndFlag_withOutputs ..
  | loadRegs x =>
    exact congrArg (fun t => t.setIndex (s.indexPlus (dumpCount x))) (setRegsFrom_withOutputs s b fb d 0 _)
  | ldVxK x =>
    rw [written, written, apply_ite fun t : State => t.withOutputs b fb d]
    rfl
  | _ => rfl

end

theorem exec_withOutputs {i : Instr} {s t : State} (b : Byte) (fb : FrameBuffer) (d : Bool) (hcls : i ≠ .cls)
    (hdrw : ∀ x y n, i ≠ .drw x y n) (hsound : ∀ x, i ≠ .ldSTVx x) (h : exec i s = .next t) :
    exec i (s.withOutputs b fb d) = .next (t.withOutputs b fb d) :=
  exec_of_commutes (g := fun u => u.withOutputs b fb d) (faultOf_withOutputs s b fb d i) (nextOf_withOutputs s b fb d i)
    (written_withOutputs s b fb d hcls hdrw hsound) (fun _ => rfl) (fun _ _ => rfl) h

/-- What O40 says of the outputs: only CLS, DRW and LD ST write them. -/
theorem outputs_kept {i : Instr} {s t : State} (hcls : i ≠ .cls)
    (hdrw : ∀ x y n, i ≠ .drw x y n) (hsound : ∀ x, i ≠ .ldSTVx x) (h : exec i s = .next t) :
    t.ST = s.ST ∧ t.fb = s.fb ∧ t.dirty = s.dirty := by
  obtain ⟨-, -, -, -, hST, -, hdisplay⟩ := onlyListedInstructionsWriteTheRest i s t h
  have hno : ¬ (t.fb ≠ s.fb ∨ t.dirty ≠ s.dirty) := fun hne =>
    (hdisplay hne).elim hcls fun ⟨x, y, n, hi⟩ => hdrw x y n hi
  obtain ⟨hfb, hdirty⟩ := not_or.1 hno
  exact ⟨by_contra fun hne => (hST hne).elim hsound, not_not.1 hfb, not_not.1 hdirty⟩

/-- Settles O44: CLS and DRW read no ST either, and the other instructions run alike over any outputs. -/
theorem noInstructionReadsTheSoundTimer : Obligations.NoInstructionReadsTheSoundTimer := by
  intro i s t b h
  refine ⟨fun ⟨x, hi⟩ => ?sound, fun hsound => ?others⟩
  case sound => subst hi; exact h
  by_cases hcls : i = .cls
  · subst hcls
    exact exec_of_commutes (g := fun u => { u with ST := b }) rfl rfl rfl (fun _ => rfl) (fun _ _ => rfl) h
  by_cases hdrw : ∃ x y n, i = .drw x y n
  · obtain ⟨x, y, n, rfl⟩ := hdrw
    exact exec_of_commutes (g := fun u => { u with ST := b }) rfl rfl rfl (fun _ => rfl) (fun _ _ => rfl) h
  have hdrw' : ∀ x y n, i ≠ .drw x y n := fun x y n hi => hdrw ⟨x, y, n, hi⟩
  obtain ⟨-, hfb, hdirty⟩ := outputs_kept hcls hdrw' hsound h
  have hrun := exec_withOutputs b s.fb s.dirty hcls hdrw' hsound h
  exact hrun.trans (by rw [← hfb, ← hdirty]; rfl)

/-- Settles O45: LD ST writes the timer alone, and the other instructions run alike over any outputs. -/
theorem onlyDrawReadsTheFramebuffer : Obligations.OnlyDrawReadsTheFramebuffer := by
  intro i s t fb d hdrw h
  refine ⟨fun hi => ?cls, fun hcls => ?others⟩
  case cls => subst hi; exact h
  by_cases hsound : ∃ x, i = .ldSTVx x
  · obtain ⟨x, rfl⟩ := hsound
    exact exec_of_commutes (g := fun u => { u with fb := fb, dirty := d }) rfl rfl rfl (fun _ => rfl) (fun _ _ => rfl) h
  have hsound' : ∀ x, i ≠ .ldSTVx x := fun x hi => hsound ⟨x, hi⟩
  obtain ⟨hST, -, -⟩ := outputs_kept hcls hdrw hsound' h
  have hrun := exec_withOutputs s.ST fb d hcls hdrw hsound' h
  exact hrun.trans (by rw [← hST]; rfl)

/-! ## Stores followed by loads and fetches -/

/-- Settles O25: with I back, the load reads at the addresses where the dump stored, and both advance I alike. -/
theorem loadUndoesDump : Obligations.LoadUndoesDump := by
  intro x s V' hmem hin
  obtain ⟨t, hdump, hstored, -, hIt, -⟩ := (registerDumpStoresAndAdvances x s hmem).1 hin
  obtain ⟨u, hload, hloaded, -, -, hIu, -⟩ := (registerLoadReadsAndAdvances x { t with I := s.I, V := V' }).1 hin
  exact ⟨t, u, hdump, hload, fun r hr => (hloaded r hr).trans (hstored r hr),
    BitVec.eq_of_toNat_eq (hIu.trans hIt.symm)⟩

/-- The word at a PC that a store has filled. -/
theorem fetchWord_eq {t : State} {a : Nat} (hPC : t.PC.toNat = a) {hi lo : Byte} (h0 : t.byteAt a = hi)
    (h1 : t.byteAt (a + 1) = lo) : t.fetchWord = hi ++ lo := by
  rw [State.fetchWord, hPC, h0, h1, wordOfBytes]

/-- Settles O26: the next PC is the old I, where the stores put their first two bytes. -/
theorem storeIsSeenByTheNextFetch : Obligations.StoreIsSeenByTheNextFetch := by
  intro x s hmem hI
  have hPC (hin : s.indexAddr + 1 < 4096) : (s.PC + 2).toNat = s.indexAddr := by
    rw [hI] at hin ⊢
    exact BitVec.toNat_add_of_lt (by simp; omega)
  refine ⟨fun hx hin => ?dump, fun hin => ?digits⟩
  case dump =>
    obtain ⟨t, hnext, hstored, -, -, hframe⟩ := (registerDumpStoresAndAdvances x s hmem).1 hin
    have hPCt : t.PC.toNat = s.indexAddr := by rw [hframe]; exact hPC (by omega)
    exact ⟨t, hnext, fetchWord_eq hPCt (hstored 0 (Fin.zero_le x)) (hstored 1 hx)⟩
  case digits =>
    obtain ⟨t, hnext, hhundreds, htens, -, -, hframe⟩ := (decimalDigitsAreStored x s hmem).1 hin
    have hPCt : t.PC.toNat = s.indexAddr := by rw [hframe]; exact hPC (by omega)
    have hbyte {b : Byte} {n : Nat} (hb : b.toNat = n) : b = trunc8 n := by
      rw [← hb, trunc8, BitVec.ofNat_toNat, BitVec.setWidth_eq]
    exact ⟨t, hnext, fetchWord_eq hPCt (hbyte hhundreds) (hbyte htens)⟩

/-! ## What a step can do -/

/-- A step that answers a next state serves the event it chooses. -/
theorem exists_served {s t : State} (h : step s = .next t) :
    ∃ e u, chooseEvent s = some (e, u) ∧ serve e u = .next t := by
  rcases step_cases s with ⟨e, u, hchoose, hstep⟩ | ⟨-, hstep⟩
  · exact ⟨e, u, hchoose, hstep.symm.trans h⟩
  · exact nomatch hstep.symm.trans h

/-- Settles O52: the event that is chosen is ready, and it is served once. -/
theorem everyStepServesOneReadyEvent : Obligations.EveryStepServesOneReadyEvent := by
  intro s t h
  obtain ⟨e, u, hchoose, hserve⟩ := exists_served h
  obtain ⟨hready, hu⟩ := chooseEvent_some hchoose
  exact ⟨e, u, hready, hserve, hu⟩

theorem exists_next_of_serve (e : Event) (s : State) : ∃ t, serve e s = .next t := by
  rcases serve_cases e s with ⟨-, -, h⟩ | ⟨q, -, -, -, h⟩ | ⟨t, h, -⟩
  · obtain ⟨t, hnext, -⟩ := (endsCycle_cycle s).keepsMode_or_faults
    exact ⟨t, h.trans hnext⟩
  · obtain ⟨t, hnext, -⟩ := (endsCycle_cycle { s with queue := q }).keepsMode_or_faults
    exact ⟨t, h.trans hnext⟩
  · exact ⟨t, h⟩

/-- Settles O53: a live session always chooses an event, and serving any event answers a next state. -/
theorem liveSessionAlwaysSteps : Obligations.LiveSessionAlwaysSteps := by
  intro s hlive
  rcases step_cases s with ⟨e, u, -, hstep⟩ | ⟨hnone, -⟩
  · rw [hstep]
    exact exists_next_of_serve e u
  · obtain ⟨hended, -⟩ := chooseEvent_none hnone
    exact Bool.noConfusion (hlive.symm.trans hended)

/-! ## Ended sessions -/

theorem eventReady_of_ended {s : State} (h : s.mode.ended = true) (e : Event) :
    eventReady s e = true ↔ e = .snapshot := by
  cases e <;> simp [eventReady, h]

/-- An ended session serves only what is in its agenda. -/
theorem chooseEvent_of_ended {s u : State} {e : Event} (h : s.mode.ended = true)
    (hchoose : chooseEvent s = some (e, u)) : e ∈ s.agenda ∧ e = .snapshot ∧ u = { s with agenda := u.agenda } := by
  cases htake : takeReady (eventReady s) s.agenda with
  | none => simp [chooseEvent, htake, h] at hchoose
  | some p =>
    obtain ⟨hready, l₁, l₂, hagenda, -⟩ := takeReady_some (rest := p.2) (e := p.1) htake
    simp only [chooseEvent, htake, Option.some.injEq, Prod.mk.injEq] at hchoose
    obtain ⟨rfl, rfl⟩ := hchoose
    exact ⟨by simp [hagenda], (eventReady_of_ended h _).1 hready, rfl⟩

/-- Settles O54: only a snapshot of the agenda is ready after the end. -/
theorem endedSessionStaysEnded : Obligations.EndedSessionStaysEnded := by
  intro s hended
  refine ⟨fun hno => ?stop, fun t h => ?snapshot⟩
  case stop =>
    rcases step_cases s with ⟨e, u, hchoose, -⟩ | ⟨-, hstep⟩
    · obtain ⟨hmem, rfl, -⟩ := chooseEvent_of_ended hended hchoose
      exact absurd hmem hno
    · exact hstep
  case snapshot =>
    obtain ⟨e, u, hchoose, hserve⟩ := exists_served h
    obtain ⟨-, rfl, hu⟩ := chooseEvent_of_ended hended hchoose
    obtain rfl : u.takeSnapshot = t := Host.Outcome.next.inj hserve
    rw [hu]
    rfl

/-! ## Keys -/

theorem EndsCycle.keys_eq {s t : State} (h : EndsCycle s (.next t)) : t.keys = s.keys := by rw [h.frame]
theorem EndsCycle.queue_eq {s t : State} (h : EndsCycle s (.next t)) : t.queue = s.queue := by rw [h.frame]
theorem EndsCycle.cfg_eq {s t : State} (h : EndsCycle s (.next t)) : t.cfg = s.cfg := by rw [h.frame]

/-- Serving an instruction event is a cycle, or nothing where the session is not running. -/
theorem endsCycle_or_eq_of_instruction {s t : State} (h : serve .instruction s = .next t) :
    EndsCycle s (.next t) ∨ t = s := by
  by_cases hm : s.mode = .running
  · rw [serve_instruction_of_running hm] at h
    exact .inl (endsCycle_of_cycle h)
  · rw [serve_instruction_of_not_running hm] at h
    exact .inr (Host.Outcome.next.inj h).symm

/-- A Step is a cycle, or nothing where the session is not paused. -/
theorem endsCycle_or_eq_of_step {s t : State} (h : serveCommand .step s = .next t) :
    EndsCycle s (.next t) ∨ t = s := by
  rw [serveCommand] at h
  split at h
  · exact .inl (endsCycle_of_cycle h)
  · exact .inr (Host.Outcome.next.inj h).symm

theorem serveCommand_keys {c : Command} {s t : State} (h : serveCommand c s = .next t) (hne : t.keys ≠ s.keys) :
    c = .setKeyMap t.keys := by
  cases c with
  | step =>
    rcases endsCycle_or_eq_of_step h with hcycle | rfl
    · exact absurd hcycle.keys_eq hne
    · exact absurd rfl hne
  | setKeyMap m => obtain rfl := Host.Outcome.next.inj h; rfl
  | pause | close => obtain rfl := Host.Outcome.next.inj h; exact absurd rfl hne

theorem serve_command_of_nil {s : State} (h : s.queue = []) : serve .command s = .next s := by
  simp only [serve, h]

theorem serve_keys {e : Event} {s t : State} (h : serve e s = .next t) (hne : t.keys ≠ s.keys) :
    e = .writeKeys t.keys ∨ (e = .command ∧ s.queue.head? = some (.setKeyMap t.keys)) := by
  cases e with
  | instruction =>
    rcases endsCycle_or_eq_of_instruction h with hcycle | rfl
    · exact absurd hcycle.keys_eq hne
    · exact absurd rfl hne
  | command =>
    cases hq : s.queue with
    | nil =>
      rw [serve_command_of_nil hq] at h
      obtain rfl := Host.Outcome.next.inj h
      exact absurd rfl hne
    | cons c q =>
      rw [serve_command_of_cons hq] at h
      rw [serveCommand_keys h hne]
      exact .inr ⟨rfl, rfl⟩
  | writeKeys m => obtain rfl := Host.Outcome.next.inj h; exact .inl rfl
  | timer | enqueue | snapshot => obtain rfl := Host.Outcome.next.inj h; exact absurd rfl hne

/-- Settles O55: the event is chosen in a state with the same keys and queue. -/
theorem keysChangeOnlyByTheHost : Obligations.KeysChangeOnlyByTheHost := by
  intro s t h hne
  obtain ⟨e, u, hchoose, hserve⟩ := exists_served h
  obtain ⟨-, hu⟩ := chooseEvent_some hchoose
  have hkeys : u.keys = s.keys := by rw [hu]
  have hqueue : u.queue = s.queue := by rw [hu]
  have hcause := serve_keys hserve (hkeys ▸ hne)
  rw [hqueue] at hcause
  exact ⟨e, u, hchoose, hcause⟩

/-! ## Invariants of a step -/

/-- The two states agree in what the invariants on memory, PC and the parameters speak of. -/
def SameMachine (s u : State) : Prop := u.PC = s.PC ∧ u.stack = s.stack ∧ u.mem = s.mem ∧ u.cfg = s.cfg

section

variable {P : State → Prop} (hsame : ∀ {s u}, SameMachine s u → P s → P u)
  (hexec : ∀ {i s t}, s.PC.toNat + 2 ≤ memSize → P s → exec i s = .next t → P t)

include hsame hexec

theorem cycle_preserves {s t : State} (hs : P s) (h : cycle s = .next t) : P t := by
  have hfault (f : SessionFault) : P (s.enterFault f) := hsame (s := s) ⟨rfl, rfl, rfl, rfl⟩ hs
  rcases cycle_cases s with ⟨-, hfetch⟩ | ⟨-, -, hillegal⟩ | ⟨i, hPC, -, hrun⟩
  · exact Host.Outcome.next.inj (hfetch.symm.trans h) ▸ hfault _
  · exact Host.Outcome.next.inj (hillegal.symm.trans h) ▸ hfault _
  · exact hexec hPC hs (hrun.symm.trans h)

/-- A property of PC, the stack, memory and the parameters that every fetched instruction keeps is one every step
keeps. -/
theorem step_preserves {s t : State} (hs : P s) (h : step s = .next t) : P t := by
  obtain ⟨e, u, hchoose, hserve⟩ := exists_served h
  obtain ⟨-, hframe⟩ := chooseEvent_some hchoose
  have hu : P u := hsame (by rw [hframe]; exact ⟨rfl, rfl, rfl, rfl⟩) hs
  rcases serve_cases e u with ⟨-, -, hcycle⟩ | ⟨q, -, -, -, hcycle⟩ | ⟨v, hupdate, hv⟩
  · exact cycle_preserves hsame hexec hu (hcycle.symm.trans hserve)
  · have hq : P { u with queue := q } := hsame (s := u) ⟨rfl, rfl, rfl, rfl⟩ hu
    exact cycle_preserves hsame hexec hq (hcycle.symm.trans hserve)
  · obtain rfl : v = t := Host.Outcome.next.inj (hupdate.symm.trans hserve)
    exact hsame (by rw [hv]; exact ⟨rfl, rfl, rfl, rfl⟩) hu

end

/-- Settles O60: no instruction writes the parameters. -/
theorem noStepChangesAParameter : Obligations.NoStepChangesAParameter := by
  intro s t h
  refine step_preserves (P := fun u => u.cfg = s.cfg) (fun hsame hs => ?same) (fun _ hs hexec => ?exec) rfl h
  case same =>
    obtain ⟨-, -, -, hcfg⟩ := hsame
    exact hcfg.trans hs
  case exec => exact (endsCycle_of_exec hexec).cfg_eq.trans hs

/-! ## Canonical memory -/

theorem le_memSize_of_rangeFault {s : State} {len : Nat} (h : rangeFault s len = none) (hlen : len ≠ 0) :
    s.indexAddr + len ≤ memSize :=
  (outOfRange_eq_none.1 (Option.map_eq_none_iff.1 h)).resolve_left hlen

theorem memOk_written_ldB {s : State} {x : Reg} (hs : memOk s) (hfault : faultOf (.ldB x) s = none) :
    memOk (written (.ldB x) s) :=
  s.memOk_storeBytes _ _ hs (le_memSize_of_rangeFault hfault (Nat.succ_ne_zero 2))

theorem memOk_written_storeRegs {s : State} {x : Reg} (hs : memOk s) (hfault : faultOf (.storeRegs x) s = none) :
    memOk (written (.storeRegs x) s) := by
  have hin : s.indexAddr + (s.regsUpTo x).length ≤ memSize := by
    rw [State.length_regsUpTo]
    exact le_memSize_of_rangeFault hfault (Nat.succ_ne_zero _)
  exact s.memOk_storeBytes _ _ hs hin

theorem memOk_exec {i : Instr} {s t : State} (hs : memOk s) (h : exec i s = .next t) : memOk t := by
  obtain ⟨-, -, -, -, -, hstores, -⟩ := onlyListedInstructionsWriteTheRest i s t h
  by_cases hkept : t.mem = s.mem
  · rwa [memOk, hkept, (endsCycle_of_exec h).cfg_eq]
  · rcases exec_cases h with ⟨f, -, rfl⟩ | ⟨hfault, rfl⟩
    · exact hs
    · obtain ⟨x, rfl | rfl⟩ := hstores hkept
      · exact memOk_written_ldB hs hfault
      · exact memOk_written_storeRegs hs hfault

/-- Settles O57: only the two stores write memory, and they write inside it, where a write keeps the canonical form. -/
theorem everyStepKeepsMemoryCanonical : Obligations.EveryStepKeepsMemoryCanonical := by
  intro s t hs h
  refine step_preserves (P := memOk) (fun hsame hs => ?same) (fun _ hs hexec => memOk_exec hs hexec) hs h
  case same =>
    obtain ⟨-, -, hmem, hcfg⟩ := hsame
    rwa [memOk, hmem, hcfg]

/-! ## PC and return addresses -/

/-- From the address of a word inside memory the next ones are at most 0x1002: the sums do not wrap. -/
theorem next_words_le {pc : Word} (h : pc.toNat + 2 ≤ memSize) : (pc + 2).toNat ≤ 0x1000 ∧ (pc + 4).toNat ≤ 0x1002 := by
  unfold memSize at h
  constructor <;> bv_omega

theorem stack_getD_le {s : State} (h : ∀ k : Fin 32, s.stack[k].toNat ≤ 0x1000) (k : Nat) :
    ((s.stack[k]?).getD 0).toNat ≤ 0x1000 := by
  by_cases hk : k < 32
  · rw [Vector.getElem?_eq_getElem hk]
    exact h ⟨k, hk⟩
  · rw [Vector.getElem?_eq_none (Nat.not_lt.1 hk)]
    decide

theorem nextOf_le {s : State} (hPC : s.PC.toNat + 2 ≤ memSize) (hstack : ∀ k : Fin 32, s.stack[k].toNat ≤ 0x1000)
    (i : Instr) : (nextOf i s).toNat ≤ 0x10FE := by
  have hpc : s.PC.toNat + 2 ≤ 4096 := hPC
  obtain ⟨h2, h4⟩ := next_words_le hPC
  have hskip (c : Prop) [Decidable c] : (if c then s.PC + 4 else s.PC + 2).toNat ≤ 0x10FE := by
    split <;> omega
  cases i with
  | jp nnn | call nnn =>
    have hn := nnn.isLt
    rw [nextOf, targetOf_toNat]
    omega
  | ret => exact (stack_getD_le hstack _).trans (by decide)
  | jpV0 nnn =>
    have hn := nnn.isLt
    have hv := (s.reg 0).isLt
    rw [nextOf, offsetTarget_toNat]
    omega
  | ldVxK x =>
    rw [nextOf]
    split <;> omega
  | seByte x kk => rw [nextOf]; exact hskip _
  | sneByte x kk => rw [nextOf, ← ite_not]; exact hskip _
  | seReg x y => rw [nextOf]; exact hskip _
  | sneReg x y => rw [nextOf, ← ite_not]; exact hskip _
  | skp x => exact hskip _
  | sknp x => exact hskip _
  | _ => exact h2.trans (by decide)

theorem stack_le_of_call {nnn : Addr} {s t : State} (hPC : s.PC.toNat + 2 ≤ memSize)
    (hs : ∀ k : Fin 32, s.stack[k].toNat ≤ 0x1000) (h : exec (.call nnn) s = .next t) (k : Fin 32) :
    t.stack[k].toNat ≤ 0x1000 := by
  rcases s.push_cases (s.PC + 2) with ⟨-, hfull⟩ | ⟨hfree, hpush⟩
  · rw [exec_call_of_full hfull] at h
    obtain rfl := Host.Outcome.next.inj h
    exact hs k
  · rw [exec_call_of_push hpush] at h
    obtain rfl := Host.Outcome.next.inj h
    rw [State.retire_stack, Fin.getElem_fin, Vector.getElem_set]
    split
    · exact (next_words_le hPC).1
    · exact hs k

theorem pcBounded_exec {i : Instr} {s t : State} (hPC : s.PC.toNat + 2 ≤ memSize) (hs : pcBounded s)
    (h : exec i s = .next t) : pcBounded t := by
  obtain ⟨hpc, hstack⟩ := hs
  refine ⟨?pc, fun k => ?stack⟩
  case pc =>
    rcases exec_cases h with ⟨f, -, rfl⟩ | ⟨-, rfl⟩
    · exact hpc
    · exact nextOf_le hPC hstack i
  case stack =>
    obtain ⟨-, -, hcall, -⟩ := onlyListedInstructionsWriteTheRest i s t h
    by_cases hkept : t.stack = s.stack
    · rw [hkept]
      exact hstack k
    · obtain ⟨nnn, rfl⟩ := hcall hkept
      exact stack_le_of_call hPC hstack h k

/-- Settles O58: an instruction is fetched only where two bytes are inside memory, so PC + 4 is at most 0x1002 and a
return address at most 0x1000; the jumps are bounded by their operands and RET by the stack. -/
theorem everyStepKeepsPcBounded : Obligations.EveryStepKeepsPcBounded := by
  intro s t hs h
  refine step_preserves (P := pcBounded) (fun hsame hs => ?same) (fun hPC hs hexec => pcBounded_exec hPC hs hexec) hs h
  case same =>
    obtain ⟨hpc, hstack, -, -⟩ := hsame
    rwa [pcBounded, hpc, hstack]

/-! ## The queue -/

theorem queueBounded_iff {s : State} :
    queueBounded s = true ↔ ∀ n, s.cfg.queueBound = some n → s.queue.length ≤ n := by
  unfold queueBounded
  cases s.cfg.queueBound <;> simp

theorem queueFull_iff {s : State} : s.queueFull = true ↔ ∃ n, s.cfg.queueBound = some n ∧ n ≤ s.queue.length := by
  unfold State.queueFull
  cases s.cfg.queueBound <;> simp

theorem serveCommand_queue_length {c : Command} {s t : State} (h : serveCommand c s = .next t) :
    t.queue.length ≤ s.queue.length := by
  cases c with
  | step =>
    rcases endsCycle_or_eq_of_step h with hcycle | rfl
    · rw [hcycle.queue_eq]
    · exact le_rfl
  | close => obtain rfl := Host.Outcome.next.inj h; exact Nat.zero_le _
  | pause | setKeyMap => obtain rfl := Host.Outcome.next.inj h; exact le_rfl

/-- Only an enqueue makes the queue longer, by one command. -/
theorem serve_queue {e : Event} {s t : State} (h : serve e s = .next t) :
    t.queue.length ≤ s.queue.length ∨ ∃ c, e = .enqueue c ∧ t.queue = s.queue ++ [c] := by
  cases e with
  | instruction =>
    rcases endsCycle_or_eq_of_instruction h with hcycle | rfl
    · rw [hcycle.queue_eq]; exact .inl le_rfl
    · exact .inl le_rfl
  | command =>
    cases hq : s.queue with
    | nil =>
      rw [serve_command_of_nil hq] at h
      obtain rfl := Host.Outcome.next.inj h
      rw [hq]
      exact .inl le_rfl
    | cons c q =>
      rw [serve_command_of_cons hq] at h
      exact .inl ((serveCommand_queue_length h).trans (Nat.le_succ _))
  | enqueue c => obtain rfl := Host.Outcome.next.inj h; exact .inr ⟨c, rfl, rfl⟩
  | timer | writeKeys | snapshot => obtain rfl := Host.Outcome.next.inj h; exact .inl le_rfl

theorem queueFull_of_ready_enqueue {s : State} {c : Command} (h : eventReady s (.enqueue c) = true) :
    s.queueFull = false := by
  obtain ⟨-, hfree⟩ := Bool.and_eq_true_iff.1 h
  simpa using hfree

/-- Settles O59: the one event that lengthens the queue is not ready where the queue is full. -/
theorem everyStepKeepsTheQueueBounded : Obligations.EveryStepKeepsTheQueueBounded := by
  intro s t hs h
  obtain ⟨e, u, hchoose, hserve⟩ := exists_served h
  obtain ⟨hready, hu⟩ := chooseEvent_some hchoose
  have hqueue : u.queue = s.queue := by rw [hu]
  refine queueBounded_iff.2 fun n hn => ?_
  rw [noStepChangesAParameter s t h] at hn
  have hlen : s.queue.length ≤ n := queueBounded_iff.1 hs n hn
  rcases serve_queue hserve with hle | ⟨c, rfl, happend⟩
  · rw [hqueue] at hle
    exact hle.trans hlen
  · have hfree : ¬ n ≤ s.queue.length := fun hfull =>
      Bool.false_ne_true ((queueFull_of_ready_enqueue hready).symm.trans (queueFull_iff.2 ⟨n, hn, hfull⟩))
    rw [happend, hqueue, List.length_append]
    exact Nat.succ_le_of_lt (Nat.not_le.1 hfree)

/-- Settles O50: the moves are the updates of `serve`, and in a live session only a full queue holds an enqueue up. -/
theorem hostMovesActAsListed : Obligations.HostMovesActAsListed := by
  refine ⟨fun _ _ => rfl, fun _ _ => rfl, fun s c hlive => ?_⟩
  rw [← queueFull_iff]
  simp [eventReady, hlive]

/-! ## Cycles -/

theorem cycle_of_decode {s : State} {i : Instr} (hPC : s.PC.toNat + 1 < memSize) (h : decode s.fetchWord = some i) :
    cycle s = exec i s := by
  rw [cycle, checked_of_inRange (.inr hPC), h]

/-- Settles O34: the fetch is checked first, as two bytes at PC. -/
theorem fetchPastMemoryFaults : Obligations.FetchPastMemoryFaults := fun _ hPC =>
  checked_of_outOfRange (Nat.succ_le_succ (Nat.succ_le_succ hPC)) (by decide)

/-- Settles O35: the fetch is in range, so the word is decoded, with no row for it. -/
theorem illegalWordFaults : Obligations.IllegalWordFaults := by
  intro s hPC h
  have hword : decode s.fetchWord = none := h
  rw [cycle, checked_of_inRange (.inr hPC), hword]
  rfl

/-- Settles O9: SYS completes its cycle with the state it started in. -/
theorem sysIsANoOp : Obligations.SysIsANoOp := fun _ s => complete_eq s s

/-! ## Steps that run an instruction -/

theorem eventReady_instruction {s : State} (h : s.mode = .running) : eventReady s .instruction = true := by
  rw [eventReady, h]
  rfl

theorem eventReady_command {s : State} {c : Command} {q : List Command} (hm : s.mode = .paused)
    (hq : s.queue = c :: q) : eventReady s .command = true := by
  rw [eventReady, hm, hq]
  rfl

theorem step_instruction {s : State} {rest : List Event} (hm : s.mode = .running)
    (ha : s.agenda = .instruction :: rest) : step s = cycle { s with agenda := rest } :=
  (step_head ha (eventReady_instruction hm)).trans (serve_instruction_of_running hm)

theorem step_stepCommand {s : State} {rest : List Event} {q : List Command} (hm : s.mode = .paused)
    (ha : s.agenda = .command :: rest) (hq : s.queue = .step :: q) :
    step s = cycle { s with agenda := rest, queue := q } :=
  (step_head ha (eventReady_command hm hq)).trans (serve_command_step_of_paused hq hm)

theorem step_freeChoice {s : State} (h : s.mode.ended = false) (ha : s.agenda = []) :
    step s = serve s.freeChoice { s with choiceCount := s.choiceCount + 1 } := by
  simp [step, iterate, chooseEvent, ha, takeReady, h]

/-- Settles O46: the fetch reads PC, memory and the parameters, the same without the event and the command. -/
theorem stepRunsTheDecodedInstruction : Obligations.StepRunsTheDecodedInstruction := by
  refine ⟨fun s i hPC hdecode => ⟨fun hm => ?serve, fun rest hm ha => ?event, fun rest q hm ha hq => ?command⟩,
    fun _ _ _ => step_head, fun s hlive ha => ⟨eventReady_freeChoice s hlive, step_freeChoice hlive ha⟩⟩
  case serve => exact (serve_instruction_of_running hm).trans (cycle_of_decode hPC hdecode)
  case event => exact (step_instruction hm ha).trans (cycle_of_decode hPC hdecode)
  case command => exact (step_stepCommand hm ha hq).trans (cycle_of_decode hPC hdecode)

/-! ## Placed words -/

@[simp] theorem tableWord_toNat (w : Word) : tableWord 16 w.toNat = w := by
  rw [tableWord, Nat.mod_eq_of_lt w.isLt, trunc16, BitVec.ofNat_toNat, BitVec.setWidth_eq]

theorem fetchBase_succ_lt (s : State) : s.fetchBase.toNat + 1 < memSize := by
  unfold State.fetchBase
  split
  next h => exact h
  next => decide

theorem fetchBase_of_inRange {s : State} (h : s.PC.toNat + 1 < memSize) : s.fetchBase = s.PC := if_pos h

theorem fetchWord_placeWord {s : State} (hs : memOk s) (w : Word) : (s.placeWord w).fetchWord = w := by
  have hfit : s.fetchBase.toNat + [highByte w, lowByte w].length ≤ memSize := fetchBase_succ_lt s
  have hhigh := s.byteAt_storeBytes_of_getElem? (k := 0) hs hfit rfl
  have hlow := s.byteAt_storeBytes_of_getElem? (k := 1) hs hfit rfl
  exact (fetchWord_eq rfl hhigh hlow).trans (wordOfBytes_high_low w)

/-- Settles O47: the placed word is at PC and its instruction event is the first of the agenda. -/
theorem placedWordRunsNext : Obligations.PlacedWordRunsNext := by
  intro s w i hs hdecode
  rw [State.withFetchWord, tableWord_toNat]
  refine ⟨?runs, fun hPC => ⟨fetchBase_of_inRange hPC, fun a h0 h1 => ?others⟩⟩
  case runs =>
    have hword : decode (s.placeWord w).fetchWord = some i := by rw [fetchWord_placeWord hs, hdecode]
    exact (step_instruction rfl rfl).trans (cycle_of_decode (fetchBase_succ_lt s) hword)
  case others =>
    have hfit : s.fetchBase.toNat + [highByte w, lowByte w].length ≤ memSize := fetchBase_succ_lt s
    refine s.byteAt_storeBytes_outside _ _ hs hfit a ?_
    rw [fetchBase_of_inRange hPC]
    have hlen : [highByte w, lowByte w].length = 2 := rfl
    omega

/-! ## Parked states -/

theorem targetOf_setWidth {pc : Word} (h : pc.toNat + 1 < memSize) : targetOf (pc.setWidth 12) = pc := by
  unfold memSize at h
  apply BitVec.eq_of_toNat_eq
  rw [targetOf_toNat, BitVec.toNat_setWidth]
  omega

theorem decode_packAddr_one (nnn : Addr) : decode (packAddr 0x1 nnn) = some (.jp nnn) :=
  decode_encode (i := .jp nnn) rfl

/-- Settles O56: the parked word decodes to the jump to PC. -/
theorem parkedCycleChangesOnlyPrevKeys : Obligations.ParkedCycleChangesOnlyPrevKeys := by
  intro s rest hparked hm ha
  refine ⟨?runs, hparked⟩
  obtain ⟨hPC, hword⟩ := Bool.and_eq_true_iff.1 hparked
  replace hPC : s.PC.toNat + 1 < memSize := of_decide_eq_true hPC
  have hdecode : decode s.fetchWord = some (.jp (s.PC.setWidth 12)) := by
    rw [eq_of_beq hword, decode_packAddr_one]
  rw [step_instruction hm ha]
  refine (cycle_of_decode (s := { s with agenda := rest }) hPC hdecode).trans ?_
  rw [exec_jp, targetOf_setWidth hPC]
  rfl

/-! ## Reset and launch -/

theorem byteAt_resetWith (cfg : Config) (a : Nat) : (State.resetWith cfg).byteAt a = initialByte cfg.font a := rfl

theorem memOk_resetWith (cfg : Config) : memOk (State.resetWith cfg) := Memory.wf_nil

/-- Settles O6: every field is read off `State.resetWith`; memory has no cell and reads as its reset contents. -/
theorem resetStateIsTheListedOne : Obligations.ResetStateIsTheListedOne := by
  intro cfg
  refine ⟨rfl, rfl, fun r => ?reg, rfl, rfl, fun k => ?stack, rfl, rfl, fun px py => ?pixel, rfl, rfl, rfl, rfl, rfl,
    fun a => ?font, fun a ha => ?zero⟩
  case reg => exact Vector.getElem_replicate r.isLt
  case stack => exact Vector.getElem_replicate k.isLt
  case pixel =>
    have hbyte : FrameBuffer.byte (State.resetWith cfg).fb (8 * py + px / 8) = 0 := FrameBuffer.byte_blank _
    rw [FrameBuffer.pixel, hbyte]
    exact BitVec.getLsbD_zero
  case font => rw [byteAt_resetWith, initialByte, Vector.getElem?_eq_getElem a.isLt]; rfl
  case zero => rw [byteAt_resetWith, initialByte, Vector.getElem?_eq_none ha]; rfl

/-- Settles O7: no cell, PC at 0x200, return addresses 0 and no command. -/
theorem resetMeetsTheInvariants : Obligations.ResetMeetsTheInvariants := by
  intro cfg
  have hPC : (0x200 : Word).toNat ≤ 0x10FE := by decide
  refine ⟨memOk_resetWith cfg, ⟨hPC, fun k => ?stack⟩, queueBounded_iff.2 fun n _ => Nat.zero_le n⟩
  have hzero : (State.resetWith cfg).stack[k] = 0 := Vector.getElem_replicate k.isLt
  rw [hzero]
  decide

/-- Settles O8: the image is one store at 0x200, which fits where the image is not too long. -/
theorem launchPlacesTheImage : Obligations.LaunchPlacesTheImage := by
  intro cfg image
  refine ⟨fun hlen => ?session, fun hlen => if_neg (Nat.not_le.2 hlen)⟩
  have hfit : programBase + image.length ≤ memSize := Nat.add_le_of_le_sub' (by decide) hlen
  have himage {k : Nat} {b : Byte} (hb : image[k]? = some b) :
      ((State.resetWith cfg).storeBytes programBase image).byteAt (0x200 + k) = b :=
    State.byteAt_storeBytes_of_getElem? _ (memOk_resetWith cfg) hfit hb
  exact ⟨_, if_pos hlen, fun k b => himage, State.byteAt_storeBytes_outside _ _ _ (memOk_resetWith cfg) hfit,
    fun b0 b1 h0 h1 => fetchWord_eq rfl (himage h0) (himage h1), rfl⟩

end Sys2Proof.Machine
end
